-- ==== Sys2Proof/Word.lean ====
section
/-! DEFINITION. The words of MAGPIE-CORE: bytes of the memories, 32-bit host and command words, and the samples of
the signal path (00_scope.md R11, R13). -/

namespace Sys2Proof

/-- One byte of a memory space (20_memory.md R62). -/
abbrev Byte := BitVec 8

/-- A host bus word, and a command word (20_memory.md R60, 30_encoding.md R90). -/
abbrev Word := BitVec 32

/-- A raw sample of the ring: 3 bytes, a 24-bit pattern (00_scope.md R11). -/
abbrev RawSample := BitVec 24

/-- A sample of the filter bank: the two's-complement pattern of a signed 32-bit fixed-point value
(41_filter_bank.md R145; two's complement is PRESUMED, the spec's own G1, log 14). -/
abbrev Sample := BitVec 32

end Sys2Proof
end

