-- ==== Sys2Proof/Syntax.lean ====
section
/-! DEFINITION. The commands of MAGPIE-CORE: one constructor per row of the opcode map (30_encoding.md R91), with the
operands of its format (R92 to R96) as the unsigned numbers R99 reads them as. -/

namespace Sys2Proof

/-- The rate codes of 30_encoding.md R97, in the order of their numbers 0 to 7. -/
inductive RateCode where
  | native
  | div2
  | div4
  | div8
  | div12
  | div16
  | div24
  /-- Code 7: stored by FB_SET_TARGET, unsupported by FB_DOWNSAMPLE (R97). -/
  | reserved
deriving DecidableEq, Repr

/-- The ten commands. -/
inductive Instr where
  /-- OP 0x0, 42_format.md R190. -/
  | nop
  /-- OP 0x1, 40_ring.md R112: capacity in slots, block length in bytes. -/
  | ringInit (cap blen : Nat)
  /-- OP 0x2, 40_ring.md R120. -/
  | ringAvailable
  /-- OP 0x3, 40_ring.md R121. -/
  | ringConsume
  /-- OP 0x4, 40_ring.md R124. -/
  | ringOvrRead
  /-- OP 0x5, 40_ring.md R125. -/
  | ringOvrClear
  /-- OP 0x6, 41_filter_bank.md R160. -/
  | fbInit
  /-- OP 0x7, 41_filter_bank.md R162. -/
  | fbSetTarget (rate : RateCode)
  /-- OP 0x8, 41_filter_bank.md R166: ring slot, bit depth, raw bytes to process. -/
  | fbDownsample (slot depth rawlen : Nat)
  /-- OP 0x9, 42_format.md R186: bit depth, number of samples. -/
  | fmtConvert (depth count : Nat)
deriving DecidableEq, Repr

end Sys2Proof
end

