-- ==== Sys2Proof/WellFormed.lean ====
section
/-! DEFINITION. A command is well formed when each operand fits the bits its format gives it (30_encoding.md R93 to
R96). Range checks on the values are part of each command's rule, not of the encoding (R99). -/

namespace Sys2Proof

/-- Every operand fits its field. A rate code always does: the type has exactly the eight codes. -/
def Instr.wellFormed : Instr → Bool
  | .nop => true
  | .ringInit cap blen => decide (cap < 2 ^ 8) && decide (blen < 2 ^ 16)
  | .ringAvailable => true
  | .ringConsume => true
  | .ringOvrRead => true
  | .ringOvrClear => true
  | .fbInit => true
  | .fbSetTarget _ => true
  | .fbDownsample slot depth rawlen =>
    decide (slot < 2 ^ 7) && decide (depth < 2 ^ 5) && decide (rawlen < 2 ^ 16)
  | .fmtConvert depth count => decide (depth < 2 ^ 5) && decide (count < 2 ^ 16)

end Sys2Proof
end

