-- ==== Sys2Proof/Decode.lean ====
section
/-! DEFINITION. Decoding a command word (30_encoding.md R90 to R101) and encoding a command. Decoding is total: an
illegal word (R100) is rejected by name. -/

namespace Sys2Proof

/-- Why a command word is illegal (30_encoding.md R100). -/
inductive IllegalWord where
  /-- OP is in 0xA to 0xF. -/
  | reservedOpcode (op : Nat)
  /-- A reserved bit of the format of OP is 1. -/
  | reservedBits (op : Nat)
deriving DecidableEq, Repr

/-- The `len` bits of `c` from bit `lo` upwards, as an unsigned number: `c[lo+len-1 : lo]` (00_scope.md R12). -/
def field (c : Word) (lo len : Nat) : Nat :=
  (c.extractLsb' lo len).toNat

/-- The number of a rate code (30_encoding.md R97). -/
def RateCode.code : RateCode → Nat
  | .native => 0
  | .div2 => 1
  | .div4 => 2
  | .div8 => 3
  | .div12 => 4
  | .div16 => 5
  | .div24 => 6
  | .reserved => 7

/-- The rate code of a 3-bit number (30_encoding.md R97). -/
def RateCode.ofCode : Nat → RateCode
  | 0 => .native
  | 1 => .div2
  | 2 => .div4
  | 3 => .div8
  | 4 => .div12
  | 5 => .div16
  | 6 => .div24
  | _ => .reserved

/-- A command whose reserved bits read `reserved`: the command when they are 0, else an illegal word. -/
def legalWhen (reserved op : Nat) (i : Instr) : Except IllegalWord Instr :=
  if reserved = 0 then .ok i else .error (.reservedBits op)

/-- The decoder of 30_encoding.md R101. -/
def decode (c : Word) : Except IllegalWord Instr :=
  match field c 0 4 with
  | 0x0 => legalWhen (field c 4 28) 0x0 .nop
  | 0x1 => legalWhen (field c 12 4) 0x1 (.ringInit (field c 4 8) (field c 16 16))
  | 0x2 => legalWhen (field c 4 28) 0x2 .ringAvailable
  | 0x3 => legalWhen (field c 4 28) 0x3 .ringConsume
  | 0x4 => legalWhen (field c 4 28) 0x4 .ringOvrRead
  | 0x5 => legalWhen (field c 4 28) 0x5 .ringOvrClear
  | 0x6 => legalWhen (field c 4 28) 0x6 .fbInit
  | 0x7 => legalWhen (field c 7 25) 0x7 (.fbSetTarget (.ofCode (field c 4 3)))
  | 0x8 => .ok (.fbDownsample (field c 4 7) (field c 11 5) (field c 16 16))
  | 0x9 => legalWhen (field c 4 7) 0x9 (.fmtConvert (field c 11 5) (field c 16 16))
  | op => .error (.reservedOpcode op)

/-- The opcode of a command (30_encoding.md R91). -/
def Instr.opcode : Instr → Nat
  | .nop => 0x0
  | .ringInit _ _ => 0x1
  | .ringAvailable => 0x2
  | .ringConsume => 0x3
  | .ringOvrRead => 0x4
  | .ringOvrClear => 0x5
  | .fbInit => 0x6
  | .fbSetTarget _ => 0x7
  | .fbDownsample _ _ _ => 0x8
  | .fmtConvert _ _ => 0x9

/-- Format F0 (30_encoding.md R92). -/
def encodeF0 (op : Nat) : Word :=
  0#28 ++ BitVec.ofNat 4 op

/-- The word of a command, `enc` of 30_encoding.md R103, from the formats of R92 to R96. -/
def encode : Instr → Word
  | .nop => encodeF0 0x0
  | .ringInit cap blen => BitVec.ofNat 16 blen ++ 0#4 ++ BitVec.ofNat 8 cap ++ 0x1#4
  | .ringAvailable => encodeF0 0x2
  | .ringConsume => encodeF0 0x3
  | .ringOvrRead => encodeF0 0x4
  | .ringOvrClear => encodeF0 0x5
  | .fbInit => encodeF0 0x6
  | .fbSetTarget rate => 0#25 ++ BitVec.ofNat 3 rate.code ++ 0x7#4
  | .fbDownsample slot depth rawlen =>
    BitVec.ofNat 16 rawlen ++ BitVec.ofNat 5 depth ++ BitVec.ofNat 7 slot ++ 0x8#4
  | .fmtConvert depth count =>
    BitVec.ofNat 16 count ++ BitVec.ofNat 5 depth ++ 0#7 ++ 0x9#4

/-- The command word whose low `nbits` bits are those of `w` and whose other bits are 0. A command is one 32-bit word
written whole on the host bus (R90), so it has no layout in a memory. -/
def tableWord (nbits w : Nat) : Word :=
  BitVec.ofNat 32 (w % 2 ^ nbits)

/-- What the decoder reads from an opcode-table word. -/
def decodeTableWord (nbits w : Nat) : Option Instr :=
  match decode (tableWord nbits w) with
  | .ok i => some i
  | .error _ => none

/-- The spec's name of a rate (30_encoding.md R97; code 7 has only its number). -/
def RateCode.asm : RateCode → String
  | .native => "NATIVE"
  | .div2 => "DIV2"
  | .div4 => "DIV4"
  | .div8 => "DIV8"
  | .div12 => "DIV12"
  | .div16 => "DIV16"
  | .div24 => "DIV24"
  | .reserved => "7"

/-- The spec's assembly syntax of a command (30_encoding.md R102). -/
def Instr.asm : Instr → String
  | .nop => "NOP"
  | .ringInit cap blen => "RING_INIT cap=" ++ toString cap ++ ", blen=" ++ toString blen
  | .ringAvailable => "RING_AVAILABLE"
  | .ringConsume => "RING_CONSUME"
  | .ringOvrRead => "RING_OVR_READ"
  | .ringOvrClear => "RING_OVR_CLEAR"
  | .fbInit => "FB_INIT"
  | .fbSetTarget rate => "FB_SET_TARGET rate=" ++ rate.asm
  | .fbDownsample slot depth rawlen =>
    "FB_DOWNSAMPLE slot=" ++ toString slot ++ ", depth=" ++ toString depth ++ ", rawlen=" ++ toString rawlen
  | .fmtConvert depth count => "FMT_CONVERT depth=" ++ toString depth ++ ", count=" ++ toString count

end Sys2Proof
end

