-- ==== Sys2Proof/Config.lean ====
section
/-! DEFINITION. What an implementation of MAGPIE-CORE fixes (00_scope.md R9, R10), the shapes of the filter bank's
per-stage tables (41_filter_bank.md R140 to R142, R155), and the free values: constants without a body that stand for
what the spec leaves unspecified (93_implementation_defined.md U1 to U4, U7, U8). -/

namespace Sys2Proof

/-- The internal byte spaces of 20_memory.md R62. The fourth space, REG, is the six registers. -/
inductive Space where
  | ring
  | out
  | fxp
deriving DecidableEq, Repr

/-- The rates that have a cascade (41_filter_bank.md R140): rate codes 1 to 6. -/
inductive CascadeRate where
  | div2
  | div4
  | div8
  | div12
  | div16
  | div24
deriving DecidableEq, Repr

/-- The six cascade rates, in the order of their codes. -/
def CascadeRate.all : List CascadeRate :=
  [.div2, .div4, .div8, .div12, .div16, .div24]

/-- The decimation factor of a stage: 2 or 3 (41_filter_bank.md R142). -/
inductive Factor where
  | two
  | three
deriving DecidableEq, Repr

/-- A stage's coefficient vector `COEF[r][s]`: `h[0]` and then `h[1]` to `h[T-1]`, so that `T >= 1` holds by
construction (00_scope.md R10) and `T - 1` is the length of `rest`. -/
structure Taps where
  first : Sample
  rest : List Sample
deriving DecidableEq, Repr, Inhabited

/-- One entry for each of the `n` stages of a cascade, in stage order. -/
structure Stages (n : Nat) (α : Type) where
  list : List α
  size : list.length = n
deriving DecidableEq, Repr

/-- One entry for each stage of each cascade; the stage counts are `S(r)` of 41_filter_bank.md R155. -/
structure Bank (α : Type) where
  div2 : Stages 1 α
  div4 : Stages 2 α
  div8 : Stages 3 α
  div12 : Stages 3 α
  div16 : Stages 4 α
  div24 : Stages 4 α
deriving DecidableEq, Repr

/-- The size parameters of 00_scope.md R9. -/
structure Sizes where
  /-- K_MAX: the largest ring capacity RING_INIT accepts. -/
  kMax : Nat
  /-- N_MAX: the largest block length in samples. -/
  nMax : Nat
  /-- CNT_W: the width in bits of the available-count. -/
  cntW : Nat
deriving DecidableEq, Repr

/-- SLOT_STRIDE, derived and never chosen separately (00_scope.md R9). -/
def Sizes.slotStride (z : Sizes) : Nat :=
  3 * z.nMax

/-- The constraints of 00_scope.md R9 on the size parameters. -/
structure Sizes.Valid (z : Sizes) : Prop where
  kMax_mem : z.kMax ∈ [1, 2, 4, 8, 16, 32, 64, 128]
  ring_fits : z.kMax * z.slotStride ≤ 0x100000
  nMax_mult : z.nMax % 4 = 0
  nMax_pos : 1 ≤ z.nMax
  nMax_le : z.nMax ≤ 21844
  count_fits : z.kMax + 1 ≤ 2 ^ z.cntW - 1
  cntW_le : z.cntW ≤ 31

/-- The defaults of 00_scope.md R9. -/
def Config.defaultSizes : Sizes :=
  { kMax := 16, nMax := 8256, cntW := 16 }

/-- FIR_REDUCE, the function a model takes as a parameter (00_scope.md R10, 93_implementation_defined.md U9), named by
data: `Sys2Proof.Machine.reduceBy` gives the function (log 20). -/
inductive Reduction where
  /-- The spec's default (41_filter_bank.md R151). -/
  | standard
  /-- Any other function from the exact dot product to the output sample. -/
  | other (id : Nat)
deriving DecidableEq, Repr

/-- The filter parameters of 00_scope.md R10. -/
structure FilterParams where
  /-- COEF[r][s]. -/
  coef : Bank Taps
  /-- POS3_12, the index of the 3:1 stage of native/12. -/
  pos3Div12 : Fin 3
  /-- POS3_24, the index of the 3:1 stage of native/24. -/
  pos3Div24 : Fin 4
  /-- FIR_REDUCE. -/
  reduce : Reduction
deriving DecidableEq, Repr

/-- DESIGN CHOICE (log 7), safe: COEF[r][s] of the machine that State.reset describes. No source gives a value
(91_not_in_source.md N15), so nothing can be proved of one. -/
opaque Config.coef : CascadeRate → Nat → Taps

/-- DESIGN CHOICE (log 7), safe: POS3_12 of the machine that State.reset describes (91_not_in_source.md N17). -/
opaque Config.pos3Div12 : Fin 3

/-- DESIGN CHOICE (log 7), safe: POS3_24 of the machine that State.reset describes (91_not_in_source.md N17). -/
opaque Config.pos3Div24 : Fin 4

/-- DESIGN CHOICE (log 20), safe: the reductions other than the default of 41_filter_bank.md R151. No source gives one
(92_eei_decisions.md D21), so nothing can be proved of any. The arguments are the reduction's name and the exact dot
product. -/
opaque Config.otherReduction : Nat → Int → Sample

/-- DESIGN CHOICE (log 4), safe: what a byte never written since the latest reset reads as (00_scope.md R14, U1 to U3):
a free value, fixed once drawn. The arguments are the number of hardware resets so far, the space and the offset. -/
opaque Config.unwrittenByte : Nat → Space → Nat → Byte

/-- DESIGN CHOICE (log 5), safe: what a history sample holds between a hardware reset and the first FB_INIT (U4): a free
value. The arguments are the number of hardware resets so far, the cascade, the stage and the index. -/
opaque Config.unwrittenSample : Nat → CascadeRate → Nat → Nat → Sample

end Sys2Proof
end

