-- ==== Sys2Proof/Machine/Bank.lean ====
section
/-! DEFINITION. The operations on per-stage tables of the filter bank: making one, mapping one, reading and replacing
the entries of one cascade (41_filter_bank.md R141, R154). -/

namespace Sys2Proof.Machine

/-- The table of `n` stages whose entry for stage `s` is `f s`. -/
def stagesOf {α : Type} (n : Nat) (f : Nat → α) : Stages n α :=
  ⟨(List.range n).map f, by simp⟩

/-- `f` of every entry, with its stage index. -/
def stagesMap {α β : Type} {n : Nat} (f : Nat → α → β) (v : Stages n α) : Stages n β :=
  ⟨v.list.mapIdx f, by simp [v.size]⟩

/-- The entries `l` in place of those of `v`, when there is one for each stage. -/
def stagesPut {α : Type} {n : Nat} (v : Stages n α) (l : List α) : Stages n α :=
  if h : l.length = n then ⟨l, h⟩ else v

/-- The bank whose entry for stage `s` of cascade `r` is `f r s`. -/
def bankOf {α : Type} (f : CascadeRate → Nat → α) : Bank α :=
  { div2 := stagesOf 1 (f .div2), div4 := stagesOf 2 (f .div4), div8 := stagesOf 3 (f .div8),
    div12 := stagesOf 3 (f .div12), div16 := stagesOf 4 (f .div16), div24 := stagesOf 4 (f .div24) }

/-- `f` of every entry, with its cascade and its stage index. -/
def bankMap {α β : Type} (f : CascadeRate → Nat → α → β) (b : Bank α) : Bank β :=
  { div2 := stagesMap (f .div2) b.div2, div4 := stagesMap (f .div4) b.div4, div8 := stagesMap (f .div8) b.div8,
    div12 := stagesMap (f .div12) b.div12, div16 := stagesMap (f .div16) b.div16,
    div24 := stagesMap (f .div24) b.div24 }

/-- The entries of cascade `r`, in stage order. -/
def bankGet {α : Type} (b : Bank α) : CascadeRate → List α
  | .div2 => b.div2.list
  | .div4 => b.div4.list
  | .div8 => b.div8.list
  | .div12 => b.div12.list
  | .div16 => b.div16.list
  | .div24 => b.div24.list

/-- The bank with the entries of cascade `r` replaced, every other cascade's kept (R154). -/
def bankPut {α : Type} (b : Bank α) (r : CascadeRate) (l : List α) : Bank α :=
  match r with
  | .div2 => { b with div2 := stagesPut b.div2 l }
  | .div4 => { b with div4 := stagesPut b.div4 l }
  | .div8 => { b with div8 := stagesPut b.div8 l }
  | .div12 => { b with div12 := stagesPut b.div12 l }
  | .div16 => { b with div16 := stagesPut b.div16 l }
  | .div24 => { b with div24 := stagesPut b.div24 l }

/-- Histories of the right lengths, `T[r][s] - 1` samples each (10_state.md R39), that no FB_INIT has written: free
values (log 5). -/
def unwrittenHistories (resets : Nat) (coef : Bank Taps) : Bank (List Sample) :=
  bankMap (fun r s taps => (List.range taps.rest.length).map (Config.unwrittenSample resets r s)) coef

/-- Histories of the right lengths, all zeros: the "zeroed delay-lines" of FB_INIT (41_filter_bank.md R146, R160). -/
def zeroHistories (coef : Bank Taps) : Bank (List Sample) :=
  bankMap (fun _ _ taps => List.replicate taps.rest.length 0#32) coef

/-- The filter parameters of the machine that State.reset describes: values of which nothing is known (log 7), and the
spec's default FIR_REDUCE (log 8). -/
def configFilter : FilterParams :=
  { coef := bankOf Config.coef, pos3Div12 := Config.pos3Div12, pos3Div24 := Config.pos3Div24,
    reduce := .standard }

end Sys2Proof.Machine
end

