-- ==== Sys2Proof/Machine/State.lean ====
section
/-! DEFINITION. The state of MAGPIE-CORE (10_state.md R22), the transactions that drive it (20_memory.md R60, R61),
the ways a step can stop, and the state after hardware reset (70_reset_and_hazards.md R230). -/

namespace Sys2Proof.Machine

/-- The bytes of a space that have been written since the latest reset, as (offset, byte) pairs, offsets strictly
rising (`Memory.wf`). An unlisted offset holds no written byte; what it reads as is `State.byteAt`'s business (log 4,
log 17). -/
abbrev Memory := List Host.Cell

/-- The canonical form of a memory: offsets strictly rising. No listed entry can equal what an unlisted offset holds,
because an unlisted offset holds no written byte (log 17). -/
abbrev Memory.wf (m : Memory) : Prop :=
  m.Pairwise (fun x y => x.1 < y.1)

/-- The access widths of the host bus: 1, 2 or 4 bytes (20_memory.md R60). -/
inductive AccessSize where
  | byte
  | half
  | word
deriving DecidableEq, Repr

/-- What acts on MAGPIE-CORE from outside: the transactions of its two agents and hardware reset
(20_memory.md R60, R61, 70_reset_and_hazards.md R230). -/
inductive Event where
  /-- `HostRead(addr, size)`. -/
  | hostRead (addr : Word) (size : AccessSize)
  /-- `HostWrite(addr, size, value)`. -/
  | hostWrite (addr : Word) (size : AccessSize) (value : Word)
  /-- `BLOCK_READY(raw)`, the bytes in wire order. -/
  | blockReady (raw : List Byte)
  /-- Hardware reset is asserted, between two transactions (R231). -/
  | reset
deriving DecidableEq, Repr

/-- The error causes of 60_exceptions.md R201. -/
inductive ErrorCause where
  | illegal
  | ringUninit
  | fbUninit
  | empty
  | arg
  | bus
  | pushDrop
deriving DecidableEq, Repr

/-- The ways a step can fault. MAGPIE-CORE has no traps (60_exceptions.md R200): its errors are next states. -/
inductive Fault where
  /-- Raised by FB_DOWNSAMPLE, FMT_CONVERT and BLOCK_READY where they would read or write past the end of a byte space
  (20_memory.md R62). Safe: the model stops where the spec has no byte to access. It cannot happen in a state that
  meets the invariant `Sys2Proof.Safety.Inv` (log 12). -/
  | outsideSpace (space : Space)
deriving DecidableEq, Repr

/-- The ways a step can be refused. -/
inductive Refusal where
  /-- An instruction without a meaning yet. Safe. No arm of `exec` answers it. -/
  | notModelled (mnemonic : String)
  /-- Raised by BLOCK_READY when the block's length is not BLEN while RING_READY = 1: the spec gives no such
  transaction (40_ring.md R116, U5 "refuse"). Safe (log 11). -/
  | blockLength
deriving DecidableEq, Repr

/-- The state. The first four groups are the table of 10_state.md R22. -/
structure State where
  /-- K_MAX, N_MAX and CNT_W (00_scope.md R9), read through PARAM (R34). No step writes them. -/
  sizes : Sizes
  /-- COEF, POS3_12 and POS3_24 (00_scope.md R10, 10_state.md R38). No step writes them. -/
  filter : FilterParams
  /-- RING_READY (R23). -/
  ringReady : Bool
  /-- K, the ring capacity in slots (R24). -/
  k : Nat
  /-- BLEN, the length of a raw block in bytes (R25). -/
  blen : Nat
  /-- WR, the write cursor (R26). -/
  wr : Nat
  /-- RD, the read cursor (R26). -/
  rd : Nat
  /-- COUNT, the available-count (R27). -/
  count : Nat
  /-- OVR, the overrun flag (R28). -/
  ovr : Bool
  /-- RING_MEM (R29). -/
  ringMem : Memory
  /-- FB_READY (R36). -/
  fbReady : Bool
  /-- TARGET (R37). -/
  target : RateCode
  /-- HIST[r][s], oldest sample first (R39). -/
  hist : Bank (List Sample)
  /-- OUT_MEM (R42). -/
  outMem : Memory
  /-- FXP_IN (R43), as bytes, word i at offsets 4i to 4i+3. -/
  fxpIn : Memory
  /-- RESULT (R30). -/
  result : Word
  /-- The seven sticky error bits of STATUS (R31): bit i here is STATUS bit 8 + i. -/
  errors : BitVec 7
  /-- The MODEL's own: the transactions that have not taken effect, in their total order (20_memory.md R76, log 1). -/
  inbox : List Event
  /-- The MODEL's own: the value the latest HostRead returned (20_memory.md R60, log 2). -/
  readData : Word
  /-- The MODEL's own: how many hardware resets have happened, which makes each reset draw its unspecified memories
  afresh (R230, log 4). -/
  resets : Nat
deriving DecidableEq, Repr

/-- What a step, a command or a transaction answers. -/
abbrev Answer := Host.Outcome State Fault Refusal

/-- The state right after hardware reset of a machine with the given parameters, `resets` resets having happened
before (70_reset_and_hazards.md R230): every row of R22's reset column; the memories hold no written byte and the
histories are free values. -/
def State.afterReset (sizes : Sizes) (filter : FilterParams) (resets : Nat) : State :=
  { sizes := sizes
    filter := filter
    ringReady := false
    k := 0
    blen := 0
    wr := 0
    rd := 0
    count := 0
    ovr := false
    ringMem := []
    fbReady := false
    target := .native
    hist := unwrittenHistories resets filter.coef
    outMem := []
    fxpIn := []
    result := 0#32
    errors := 0#7
    inbox := []
    readData := 0#32
    resets := resets }

/-- The machine right after reset: R9's default sizes (log 6), filter parameters of which nothing is known (log 7), no
transaction pending. -/
def State.reset : State :=
  State.afterReset Config.defaultSizes configFilter 0

end Sys2Proof.Machine
end

