-- ==== Sys2Proof/Machine/Flags.lean ====
section
/-! DEFINITION. The flags: the sticky error bits of STATUS and their clearing (10_state.md R31, 60_exceptions.md R201),
the overrun flag and the available-count it watches (40_ring.md R118, R119), and the register words the host reads
(10_state.md R31 to R34). -/

namespace Sys2Proof.Machine

/-- The STATUS bit of an error, which is its cause code (60_exceptions.md R201). -/
def ErrorCause.bit : ErrorCause → Nat
  | .illegal => 8
  | .ringUninit => 9
  | .fbUninit => 10
  | .empty => 11
  | .arg => 12
  | .bus => 13
  | .pushDrop => 14

/-- The error bits with the bit of cause `e` set. -/
def withError (errors : BitVec 7) (e : ErrorCause) : BitVec 7 :=
  errors ||| (1#7 <<< (e.bit - 8))

/-- `STATUS.E_X <- 1` and nothing else (10_state.md R31): all that a bus error and a dropped block do (R201). -/
def State.setError (s : State) (e : ErrorCause) : State :=
  { s with errors := withError s.errors e }

/-- The error bits that stay set when the host writes `v` to STATUS: a 1 in bit 14:8 clears that bit (R31). -/
def clearedBy (errors : BitVec 7) (v : Word) : BitVec 7 :=
  errors &&& ~~~(v.extractLsb' 8 7)

/-- The host's write of `v` to STATUS, the only way to clear an error bit between resets (20_memory.md R67,
60_exceptions.md R210). There is no return from an error: nothing is trapped. -/
def State.clearErrors (s : State) (v : Word) : State :=
  { s with errors := clearedBy s.errors v }

/-- STATUS as the host reads it: the error bits in 14:8, FB_READY and RING_READY in 1:0, zeros elsewhere (R31). -/
def State.statusWord (s : State) : Word :=
  0#17 ++ s.errors ++ 0#6 ++ BitVec.ofBool s.fbReady ++ BitVec.ofBool s.ringReady

/-- RING_CFG: BLEN in 31:16, K in 7:0 (R32). -/
def State.ringCfgWord (s : State) : Word :=
  BitVec.ofNat 16 s.blen ++ 0#8 ++ BitVec.ofNat 8 s.k

/-- PARAM: N_MAX in 31:16, CNT_W in 12:8, K_MAX in 7:0 (R34). -/
def State.paramWord (s : State) : Word :=
  BitVec.ofNat 16 s.sizes.nMax ++ 0#3 ++ BitVec.ofNat 5 s.sizes.cntW ++ BitVec.ofNat 8 s.sizes.kMax

/-- COUNT after one push: one more, and unchanged once it holds 2^CNT_W - 1 (40_ring.md R117, R119). -/
def countAfterPush (sizes : Sizes) (count : Nat) : Nat :=
  if count < 2 ^ sizes.cntW - 1 then count + 1 else count

/-- `overrun_check()` on the count after the increment: OVR is set when COUNT > K, and stays set (40_ring.md R118). -/
def overrunCheck (k count : Nat) (ovr : Bool) : Bool :=
  ovr || decide (k < count)

end Sys2Proof.Machine
end

