-- ==== Sys2Proof/Machine/Operands.lean ====
section
/-! DEFINITION. What operand values stand for: bit depths, rate codes and their cascades, ring capacities and slots
(30_encoding.md R97, R98, 40_ring.md R112, R115, 41_filter_bank.md R155). -/

namespace Sys2Proof.Machine

/-- The supported output bit depths (30_encoding.md R98). -/
inductive OutDepth where
  | d16
  | d24
deriving DecidableEq, Repr

/-- The bit depth a DEPTH field selects; any value but 16 and 24 is unsupported (30_encoding.md R98). -/
def outDepth? (depth : Nat) : Option OutDepth :=
  if depth = 16 then some .d16 else if depth = 24 then some .d24 else none

/-- `bps`: bytes per output sample (00_scope.md R18, 30_encoding.md R98). -/
def OutDepth.bytes : OutDepth → Nat
  | .d16 => 2
  | .d24 => 3

/-- Where FB_DOWNSAMPLE sends the samples of a rate (30_encoding.md R97). -/
inductive Route where
  /-- The native rate has no cascade (41_filter_bank.md R140). -/
  | identity
  | cascade (r : CascadeRate)
  /-- Rate code 7 (41_filter_bank.md R164, R165). -/
  | unsupported
deriving DecidableEq, Repr

/-- The route of a rate code (30_encoding.md R97). -/
def routeOf : RateCode → Route
  | .native => .identity
  | .div2 => .cascade .div2
  | .div4 => .cascade .div4
  | .div8 => .cascade .div8
  | .div12 => .cascade .div12
  | .div16 => .cascade .div16
  | .div24 => .cascade .div24
  | .reserved => .unsupported

/-- `D(r)`, the cumulative decimation factor of a cascade (30_encoding.md R97). -/
def divisor : CascadeRate → Nat
  | .div2 => 2
  | .div4 => 4
  | .div8 => 8
  | .div12 => 12
  | .div16 => 16
  | .div24 => 24

/-- `S(r)`, the number of stages of a cascade (41_filter_bank.md R155). -/
def stageCount : CascadeRate → Nat
  | .div2 => 1
  | .div4 => 2
  | .div8 => 3
  | .div12 => 3
  | .div16 => 4
  | .div24 => 4

/-- The number a factor stands for. -/
def factorValue : Factor → Nat
  | .two => 2
  | .three => 3

/-- The stage factors `M[r][0], M[r][1], …` of a cascade (41_filter_bank.md R155). -/
def cascadeFactors (p : FilterParams) : CascadeRate → List Factor
  | .div2 => [.two]
  | .div4 => [.two, .two]
  | .div8 => [.two, .two, .two]
  | .div12 => [Factor.two, .two, .two].set p.pos3Div12.val .three
  | .div16 => [.two, .two, .two, .two]
  | .div24 => [Factor.two, .two, .two, .two].set p.pos3Div24.val .three

/-- The number of coefficients `T >= 1` of a stage. -/
def tapsLength (h : Taps) : Nat :=
  h.rest.length + 1

/-- The coefficients `h[0], …, h[T-1]` of a stage. -/
def tapsList (h : Taps) : List Sample :=
  h.first :: h.rest

/-- RING_INIT's check on CAP: a power of two, "which means CAP is in 1, 2, 4, …, 128" (40_ring.md, before R110), and at
most K_MAX (R112). -/
def capacityOk (sizes : Sizes) (cap : Nat) : Bool :=
  [1, 2, 4, 8, 16, 32, 64, 128].contains cap && decide (cap ≤ sizes.kMax)

/-- RING_INIT's check on BLEN: a positive multiple of 3, at most SLOT_STRIDE (40_ring.md R112). -/
def blockLengthOk (sizes : Sizes) (blen : Nat) : Bool :=
  decide (blen ≠ 0) && decide (blen % 3 = 0) && decide (blen ≤ sizes.slotStride)

/-- `slot_base(i)`: where slot `i` of the ring starts (40_ring.md R115). -/
def slotBase (sizes : Sizes) (i : Nat) : Nat :=
  i * sizes.slotStride

/-- The input length of stage `n` of a cascade with the given factors when `input` samples enter the cascade
(41_filter_bank.md R156, 10_state.md R40). -/
def stageInputLength : List Factor → Nat → Nat → Nat
  | _, 0, input => input
  | [], _ + 1, input => input
  | m :: ms, n + 1, input => stageInputLength ms n (input / factorValue m)

/-- The number of bytes of a space (20_memory.md R62). -/
def spaceSize (sizes : Sizes) : Space → Nat
  | .ring => sizes.kMax * sizes.slotStride
  | .out => 3 * sizes.nMax
  | .fxp => 4 * sizes.nMax

/-- Endianness correction: `swap3` of each 3-byte sample of a block in wire order (40_ring.md R114, 20_memory.md R69). -/
def swapSamples : List Byte → List Byte
  | b0 :: b1 :: b2 :: rest => b2 :: b1 :: b0 :: swapSamples rest
  | _ => []

end Sys2Proof.Machine
end

