-- ==== Sys2Proof/Machine/Ops.lean ====
section
/-! DEFINITION. The named operations over the state: byte and word access to the spaces (00_scope.md R14), the control
primitives `return` and `raise` (R15), advancing the cursors (40_ring.md R117, R121), and hardware reset
(70_reset_and_hazards.md R230). -/

namespace Sys2Proof.Machine

/-- The byte written at offset `a` since the latest reset, if any. -/
def Memory.byte? (m : Memory) (a : Nat) : Option Byte :=
  m.lookup a

/-- The bytes `bs` as memory entries from offset `base` upwards. -/
def Memory.cells (base : Nat) : List Byte → Memory
  | [] => []
  | b :: bs => (base, b) :: Memory.cells (base + 1) bs

/-- The memory with `bs` written at `base`, every other byte kept (00_scope.md R14). -/
def Memory.store (m : Memory) (base : Nat) (bs : List Byte) : Memory :=
  m.filter (fun x => decide (x.1 < base)) ++ Memory.cells base bs ++
    m.filter (fun x => decide (base + bs.length ≤ x.1))

/-- The memory of a space. -/
def State.mem (s : State) : Space → Memory
  | .ring => s.ringMem
  | .out => s.outMem
  | .fxp => s.fxpIn

/-- The state with bytes `bs` written at offset `base` of a space. -/
def State.store (s : State) (sp : Space) (base : Nat) (bs : List Byte) : State :=
  match sp with
  | .ring => { s with ringMem := s.ringMem.store base bs }
  | .out => { s with outMem := s.outMem.store base bs }
  | .fxp => { s with fxpIn := s.fxpIn.store base bs }

/-- `Byte(S:a)`. A byte never written since reset reads as a free value, fixed once drawn (00_scope.md R14, U1 to U3,
log 4). -/
def State.byteAt (s : State) (sp : Space) (a : Nat) : Byte :=
  ((s.mem sp).byte? a).getD (Config.unwrittenByte s.resets sp a)

/-- The `n` bytes of a space from offset `a` upwards. -/
def State.bytesAt (s : State) (sp : Space) (a n : Nat) : List Byte :=
  (List.range n).map (fun i => s.byteAt sp (a + i))

/-- Bytes combined little-endian: the sum of `byte[i] * 2^(8i)` (00_scope.md R14). -/
def leNat : List Byte → Nat
  | [] => 0
  | b :: bs => b.toNat + 256 * leNat bs

/-- The `n` little-endian bytes of `v`: byte `i` gets bits [8i+7:8i] (00_scope.md R14). -/
def leBytes : Nat → Nat → List Byte
  | 0, _ => []
  | n + 1, v => BitVec.ofNat 8 v :: leBytes n (v / 256)

/-- `MemRead(S:a, n)` (00_scope.md R14). -/
def State.memRead (s : State) (sp : Space) (a n : Nat) : Nat :=
  leNat (s.bytesAt sp a n)

/-- `MemWrite(S:a, n, v)` (00_scope.md R14). -/
def State.memWrite (s : State) (sp : Space) (a n v : Nat) : State :=
  s.store sp a (leBytes n v)

/-- Whether the `n` bytes from offset `a` upwards are bytes of the space (20_memory.md R62). -/
def State.inSpace (s : State) (sp : Space) (a n : Nat) : Bool :=
  decide (a + n ≤ spaceSize s.sizes sp)

/-- `return v` (00_scope.md R15): RESULT <- v. -/
def State.ret (s : State) (v : Nat) : State :=
  { s with result := BitVec.ofNat 32 v }

/-- ERR, what RESULT holds after an error (10_state.md R30, 60_exceptions.md R201). -/
def errResult : Word := 0xFFFFFFFF#32

/-- `raise E_X` (00_scope.md R15), the ONE way a command meets an error: STATUS.E_X <- 1, RESULT <- 0xFFFFFFFF and no
other change (60_exceptions.md R200, R203). Nothing is trapped, so there is no handler to enter and no return from one
(R210): the host clears the bit with `State.clearErrors`. -/
def State.raise (s : State) (e : ErrorCause) : State :=
  { s.setError e with result := errResult }

/-- What a push does to the cursors, the count and the overrun flag (40_ring.md R117, R118, R119). -/
def State.afterPush (s : State) : State :=
  { s with
    wr := (s.wr + 1) % s.k
    count := countAfterPush s.sizes s.count
    ovr := overrunCheck s.k (countAfterPush s.sizes s.count) s.ovr }

/-- Hardware reset (70_reset_and_hazards.md R230): every row of R22's reset column. The parameters are constants, the
transactions still to come stay pending, and the memories are drawn afresh: nothing is known of them, not even that they
kept the value held before (log 10). -/
def State.hardwareReset (s : State) : State :=
  { State.afterReset s.sizes s.filter (s.resets + 1) with
    inbox := s.inbox
    readData := s.readData }

end Sys2Proof.Machine
end

