-- ==== Sys2Proof/Machine/Format.lean ====
section
/-! DEFINITION. The sample conversions of the Format Converter (42_format.md R180 to R184): pure functions, and the
write of packed bytes to OUT. -/

namespace Sys2Proof.Machine

/-- `widen24`: the 24-bit sample left-justified in 32 bits, the low 8 bits zero (42_format.md R181). -/
def widen24 (u : RawSample) : Sample :=
  u.signExtend 32 <<< 8

/-- `trunc16`: arithmetic right shift by 16, narrowed (42_format.md R182). -/
def trunc16 (w : Sample) : BitVec 16 :=
  (w.sshiftRight 16).setWidth 16

/-- `trunc24`: arithmetic right shift by 8, narrowed (42_format.md R183). -/
def trunc24 (w : Sample) : RawSample :=
  (w.sshiftRight 8).setWidth 24

/-- The output bytes of one sample, little-endian (42_format.md R182, R183). -/
def packSample : OutDepth → Sample → List Byte
  | .d16, w => leBytes 2 (trunc16 w).toNat
  | .d24, w => leBytes 3 (trunc24 w).toNat

/-- The output bytes of a sequence of samples, sample `i` at offset `i * bps` (42_format.md R184). -/
def packBytes (d : OutDepth) (x : List Sample) : List Byte :=
  x.flatMap (packSample d)

/-- Writing output bytes from OUT offset 0 and returning how many (42_format.md R184, 10_state.md R42). -/
def State.output (s : State) (bytes : List Byte) : Answer :=
  if s.inSpace .out 0 bytes.length then
    .next ((s.store .out 0 bytes).ret bytes.length)
  else
    .fault (.outsideSpace .out)

end Sys2Proof.Machine
end

