-- ==== Sys2Proof/Machine/FilterEngine.lean ====
section
/-! DEFINITION. The stage engine and the cascades of the Decimation Filter Bank (41_filter_bank.md R145 to R154). -/

namespace Sys2Proof.Machine

/-- One decimation stage as a run uses it: its factor, its coefficients and its history (41_filter_bank.md R142). -/
structure Stage where
  factor : Factor
  taps : Taps
  /-- Oldest sample first (R146). -/
  history : List Sample
deriving DecidableEq, Repr

/-- The spec's default FIR_REDUCE: the exact dot product, wrapped to 64 bits, shifted right by 31 toward minus infinity,
wrapped to 32 bits (41_filter_bank.md R151). PRESUMED (log 8): general knowledge by the spec's own word (G3). -/
def firReduce (acc : Int) : Sample :=
  BitVec.ofInt 32 (acc.bmod (2 ^ 64) >>> (31 : Nat))

/-- FIR_REDUCE, the function a parameter value names (00_scope.md R10, 41_filter_bank.md R151). -/
def reduceBy : Reduction → Int → Sample
  | .standard => firReduce
  | .other id => Config.otherReduction id

/-- The exact dot product at index `p` of the extended input `e`: the sum of `h[j] * e[p - j]` (R147). -/
def firDot (taps : Taps) (e : List Sample) (p : Nat) : Int :=
  ((List.range (tapsLength taps)).map (fun j =>
    ((tapsList taps).getD j 0#32).toInt * (e.getD (p - j) 0#32).toInt)).sum

/-- `last_n(s)`: the final `n` elements of a sequence (00_scope.md R12). -/
def lastN {α : Type} (n : Nat) (l : List α) : List α :=
  l.drop (l.length - n)

/-- The outputs of one stage run: one for each whole group of M inputs, at the newest of the group (R147, R149), reduced by
FIR_REDUCE (R151). -/
def stageOutput (reduce : Int → Sample) (st : Stage) (x : List Sample) : List Sample :=
  (List.range (x.length / factorValue st.factor)).map (fun k =>
    reduce (firDot st.taps (st.history ++ x)
      (st.taps.rest.length + k * factorValue st.factor + (factorValue st.factor - 1))))

/-- The history one stage run leaves: the last T - 1 of history and input (R147, R150). -/
def stageHistory (st : Stage) (x : List Sample) : List Sample :=
  lastN st.taps.rest.length (st.history ++ x)

/-- `cascade_run`: the stages in order, each on the output of the one before (R152). It gives the histories the stages are
left with, in stage order, and the output of the last one. The scratch buffers have no effect on any value (R152, log 15). -/
def cascadeRun (reduce : Int → Sample) : List Stage → List Sample → List (List Sample) × List Sample
  | [], x => ([], x)
  | st :: rest, x =>
    (stageHistory st x :: (cascadeRun reduce rest (stageOutput reduce st x)).1,
      (cascadeRun reduce rest (stageOutput reduce st x)).2)

/-- The stages of a cascade from its factors, coefficients and histories. -/
def zipStages : List Factor → List Taps → List (List Sample) → List Stage
  | m :: ms, h :: hs, e :: es => ⟨m, h, e⟩ :: zipStages ms hs es
  | _, _, _ => []

/-- The stages of cascade `r` with given histories. -/
def stagesWith (p : FilterParams) (hist : Bank (List Sample)) (r : CascadeRate) : List Stage :=
  zipStages (cascadeFactors p r) (bankGet p.coef r) (bankGet hist r)

/-- The first `n` samples of a raw block in the ring, widened (41_filter_bank.md R166 step 1, 42_format.md R181). -/
def State.rawSamples (s : State) (base n : Nat) : List Sample :=
  (List.range n).map (fun i => widen24 (BitVec.ofNat 24 (s.memRead .ring (base + 3 * i) 3)))

end Sys2Proof.Machine
end

