-- ==== Sys2Proof/Machine/FilterCommands.lean ====
section
/-! DEFINITION. The commands of the Decimation Filter Bank (41_filter_bank.md R160, R162, R166). -/

namespace Sys2Proof.Machine

/-- FB_INIT (41_filter_bank.md R160): every history zero, READY. It always succeeds. -/
def execFbInit (s : State) : Answer :=
  .next (State.ret { s with hist := zeroHistories s.filter.coef, fbReady := true } 0)

/-- FB_SET_TARGET (41_filter_bank.md R162): allowed in every state; clears no history. -/
def execFbSetTarget (rate : RateCode) (s : State) : Answer :=
  .next (State.ret { s with target := rate } 0)

/-- The state with cascade `r` run over `x` (41_filter_bank.md R152): its own histories are written, no other (R154). -/
def State.runCascade (s : State) (r : CascadeRate) (x : List Sample) : State :=
  { s with hist := bankPut s.hist r (cascadeRun (reduceBy s.filter.reduce) (stagesWith s.filter s.hist r) x).1 }

/-- What cascade `r` gives for `x`. -/
def State.cascadeOutput (s : State) (r : CascadeRate) (x : List Sample) : List Sample :=
  (cascadeRun (reduceBy s.filter.reduce) (stagesWith s.filter s.hist r) x).2

/-- The work of FB_DOWNSAMPLE once every check has passed (41_filter_bank.md R166 from `base` on, R167): the block at ring
offset `base`, `rawlen` bytes of it. -/
def State.downsample (s : State) (route : Route) (d : OutDepth) (base rawlen : Nat) : Answer :=
  match route, d with
  | .identity, .d24 => s.output (s.bytesAt .ring base rawlen)
  | .identity, .d16 => s.output (packBytes .d16 (s.rawSamples base (rawlen / 3)))
  | .cascade r, d =>
    (s.runCascade r (s.rawSamples base (rawlen / 3))).output
      (packBytes d (s.cascadeOutput r (s.rawSamples base (rawlen / 3))))
  | .unsupported, _ => .next (s.ret 0)

/-- FB_DOWNSAMPLE (41_filter_bank.md R166), with the checks in the order of 60_exceptions.md R207; an unsupported
combination returns 0 and changes nothing else (R165). -/
def execFbDownsample (slot depth rawlen : Nat) (s : State) : Answer :=
  if s.fbReady = false then .next (s.raise .fbUninit)
  else if s.ringReady = false then .next (s.raise .ringUninit)
  else if s.k ≤ slot ∨ rawlen % 3 ≠ 0 ∨ s.blen < rawlen then .next (s.raise .arg)
  else
    match outDepth? depth with
    | none => .next (s.ret 0)
    | some d =>
      if routeOf s.target = .unsupported then .next (s.ret 0)
      else if s.inSpace .ring (slotBase s.sizes slot) rawlen then
        s.downsample (routeOf s.target) d (slotBase s.sizes slot) rawlen
      else .fault (.outsideSpace .ring)

end Sys2Proof.Machine
end

