-- ==== Sys2Proof/Machine/FormatCommands.lean ====
section
/-! DEFINITION. The Format Converter's command and NOP (42_format.md R186, R190). -/

namespace Sys2Proof.Machine

/-- NOP (42_format.md R190): RESULT <- 0. -/
def execNop (s : State) : Answer :=
  .next (s.ret 0)

/-- The first `n` words of FXP_IN (42_format.md R186, 10_state.md R43). -/
def State.fxpSamples (s : State) (n : Nat) : List Sample :=
  (List.range n).map (fun i => BitVec.ofNat 32 (s.memRead .fxp (4 * i) 4))

/-- FMT_CONVERT (42_format.md R186). It needs neither part to be ready. -/
def execFmtConvert (depth count : Nat) (s : State) : Answer :=
  if s.sizes.nMax < count then .next (s.raise .arg)
  else
    match outDepth? depth with
    | none => .next (s.ret 0)
    | some d =>
      if s.inSpace .fxp 0 (4 * count) then s.output (packBytes d (s.fxpSamples count))
      else .fault (.outsideSpace .fxp)

end Sys2Proof.Machine
end

