-- ==== Sys2Proof/Machine/RingCommands.lean ====
section
/-! DEFINITION. The Acquisition Ring: its five commands and the producer's transaction (40_ring.md). -/

namespace Sys2Proof.Machine

/-- RING_INIT (40_ring.md R112): CAP is checked before BLEN (60_exceptions.md R207). -/
def execRingInit (cap blen : Nat) (s : State) : Answer :=
  if capacityOk s.sizes cap = false then .next (s.raise .arg)
  else if blockLengthOk s.sizes blen = false then .next (s.raise .arg)
  else
    .next (State.ret
      { s with k := cap, blen := blen, wr := 0, rd := 0, count := 0, ovr := false, ringReady := true } 0)

/-- RING_AVAILABLE (40_ring.md R120). -/
def execRingAvailable (s : State) : Answer :=
  if s.ringReady = false then .next (s.raise .ringUninit)
  else .next (s.ret s.count)

/-- RING_CONSUME (40_ring.md R121): the block reference is the slot index. -/
def execRingConsume (s : State) : Answer :=
  if s.ringReady = false then .next (s.raise .ringUninit)
  else if s.count = 0 then .next (s.raise .empty)
  else .next (State.ret { s with rd := (s.rd + 1) % s.k, count := s.count - 1 } s.rd)

/-- RING_OVR_READ (40_ring.md R124): reading does not clear the flag. -/
def execRingOvrRead (s : State) : Answer :=
  if s.ringReady = false then .next (s.raise .ringUninit)
  else .next (s.ret s.ovr.toNat)

/-- RING_OVR_CLEAR (40_ring.md R125). -/
def execRingOvrClear (s : State) : Answer :=
  if s.ringReady = false then .next (s.raise .ringUninit)
  else .next (State.ret { s with ovr := false } 0)

/-- BLOCK_READY (40_ring.md R117): dropped while the ring is not ready; a block of another length than BLEN is no
transaction of the spec (R116, log 11). It never writes RESULT (R111). -/
def blockReady (raw : List Byte) (s : State) : Answer :=
  if s.ringReady = false then .next (s.setError .pushDrop)
  else if raw.length ≠ s.blen then .refused .blockLength
  else if s.inSpace .ring (slotBase s.sizes s.wr) s.blen then
    .next ((s.store .ring (slotBase s.sizes s.wr) (swapSamples raw)).afterPush)
  else .fault (.outsideSpace .ring)

end Sys2Proof.Machine
end

