-- ==== Sys2Proof/Machine/Dispatch.lean ====
section
/-! DEFINITION. One arm per command (30_encoding.md R91): each is one call of the command's meaning. -/

namespace Sys2Proof.Machine

def exec (i : Instr) (s : State) : Host.Outcome State Fault Refusal :=
  match i with
  | .nop => Sys2Proof.Machine.execNop s
  | .ringInit cap blen => Sys2Proof.Machine.execRingInit cap blen s
  | .ringAvailable => Sys2Proof.Machine.execRingAvailable s
  | .ringConsume => Sys2Proof.Machine.execRingConsume s
  | .ringOvrRead => Sys2Proof.Machine.execRingOvrRead s
  | .ringOvrClear => Sys2Proof.Machine.execRingOvrClear s
  | .fbInit => Sys2Proof.Machine.execFbInit s
  | .fbSetTarget rate => Sys2Proof.Machine.execFbSetTarget rate s
  | .fbDownsample slot depth rawlen => Sys2Proof.Machine.execFbDownsample slot depth rawlen s
  | .fmtConvert depth count => Sys2Proof.Machine.execFmtConvert depth count s

end Sys2Proof.Machine
end

