-- ==== Sys2Proof/Machine/Bus.lean ====
section
/-! DEFINITION. The transactions: the host bus with its address map (20_memory.md R60 to R68), the execution of a command
word (10_state.md R35, 30_encoding.md R100), and what each event does (60_exceptions.md R215). -/

namespace Sys2Proof.Machine

/-- What a host bus address names (20_memory.md R63). -/
inductive BusTarget where
  | cmd
  | result
  | status
  | ringCfg
  | fbCfg
  | param
  | outWindow (offset : Nat)
  | fxpWindow (offset : Nat)
  | ringWindow (offset : Nat)
deriving DecidableEq, Repr

/-- The offset of `a` in a window that starts at `base` and is `size` bytes long. -/
def windowOffset? (base size a : Nat) : Option Nat :=
  if base ≤ a ∧ a < base + size then some (a - base) else none

/-- The address map (20_memory.md R63); an address in no range is unmapped. -/
def busMap (sizes : Sizes) (a : Nat) : Option BusTarget :=
  if a = 0x0 then some .cmd
  else if a = 0x4 then some .result
  else if a = 0x8 then some .status
  else if a = 0xC then some .ringCfg
  else if a = 0x10 then some .fbCfg
  else if a = 0x14 then some .param
  else
    ((windowOffset? 0x10000 (spaceSize sizes .out) a).map BusTarget.outWindow).or
      (((windowOffset? 0x20000 (spaceSize sizes .fxp) a).map BusTarget.fxpWindow).or
        ((windowOffset? 0x100000 (spaceSize sizes .ring) a).map BusTarget.ringWindow))

/-- What an access reaches: nothing, unless it is 4 bytes wide, 4-aligned and at a mapped address (20_memory.md R68,
R72). -/
def State.busTarget? (s : State) (addr : Word) (size : AccessSize) : Option BusTarget :=
  if size = .word ∧ addr.toNat % 4 = 0 then busMap s.sizes addr.toNat else none

/-- The value a performed read returns (20_memory.md R64 to R67). -/
def State.busRead (s : State) : BusTarget → Word
  | .cmd => 0#32
  | .result => s.result
  | .status => s.statusWord
  | .ringCfg => s.ringCfgWord
  | .fbCfg => BitVec.ofNat 32 s.target.code
  | .param => s.paramWord
  | .outWindow offset => BitVec.ofNat 32 (s.memRead .out offset 4)
  | .fxpWindow offset => BitVec.ofNat 32 (s.memRead .fxp offset 4)
  | .ringWindow offset => BitVec.ofNat 32 (s.memRead .ring offset 4)

/-- `HostRead(addr, size)`: the value goes to the host (`readData`, log 2) and nothing else changes (20_memory.md R75); a
bus error sets E_BUS and returns 0 (R68). -/
def hostRead (addr : Word) (size : AccessSize) (s : State) : Answer :=
  match s.busTarget? addr size with
  | some target => .next { s with readData := s.busRead target }
  | none => .next { s.setError .bus with readData := 0#32 }

/-- A command word written to CMD (10_state.md R35): the command it encodes, or `raise E_ILLEGAL` (30_encoding.md R100). -/
def runCommand (c : Word) (s : State) : Answer :=
  match decode c with
  | .ok i => exec i s
  | .error _ => .next (s.raise .illegal)

/-- `HostWrite(addr, size, value)` (20_memory.md R65 to R68). -/
def hostWrite (addr : Word) (size : AccessSize) (value : Word) (s : State) : Answer :=
  match s.busTarget? addr size with
  | some .cmd => runCommand value s
  | some .status => .next (s.clearErrors value)
  | some (.fxpWindow offset) => .next (s.memWrite .fxp offset 4 value.toNat)
  | some .result => .next (s.setError .bus)
  | some .ringCfg => .next (s.setError .bus)
  | some .fbCfg => .next (s.setError .bus)
  | some .param => .next (s.setError .bus)
  | some (.outWindow _) => .next (s.setError .bus)
  | some (.ringWindow _) => .next (s.setError .bus)
  | none => .next (s.setError .bus)

/-- What an event does: each transaction is one atomic step (20_memory.md R74, 60_exceptions.md R215). -/
def applyEvent (e : Event) (s : State) : Answer :=
  match e with
  | .hostRead addr size => hostRead addr size s
  | .hostWrite addr size value => hostWrite addr size value s
  | .blockReady raw => blockReady raw s
  | .reset => .next s.hardwareReset

/-- The next transaction in the total order of 20_memory.md R76 takes effect; with none pending MAGPIE-CORE takes no step
of its own and nothing changes (60_exceptions.md R215, log 3). -/
def takeNextEvent (s : State) : Answer :=
  match s.inbox with
  | [] => .next s
  | e :: rest => applyEvent e { s with inbox := rest }

/-- The state with the command word `c` as the next transaction: a host write to CMD (10_state.md R35). -/
def State.withCommand (s : State) (c : Word) : State :=
  { s with inbox := .hostWrite 0x0#32 .word c :: s.inbox }

/-- `WRITE a, v` (30_encoding.md R103). -/
def Event.write (a v : Word) : Event :=
  .hostWrite a .word v

/-- `READ a` (30_encoding.md R103). -/
def Event.read (a : Word) : Event :=
  .hostRead a .word

/-- `EXEC <command>` (30_encoding.md R103). -/
def Event.exec (i : Instr) : List Event :=
  [.write 0x0#32 (encode i)]

/-- `EXEC <command> -> x` (30_encoding.md R103): the write, then a read of RESULT. -/
def Event.execRead (i : Instr) : List Event :=
  [.write 0x0#32 (encode i), .read 0x4#32]

end Sys2Proof.Machine
end

