-- ==== Sys2Proof/Machine/Step.lean ====
section
/-! DEFINITION. One step of MAGPIE-CORE: one transaction (60_exceptions.md R215). -/

namespace Sys2Proof.Machine

/-- One step: the next pending transaction takes effect. -/
def step (s : State) : Host.Outcome State Fault Refusal :=
  takeNextEvent s

/-- `s` with an opcode-table word as the next command: MAGPIE-CORE fetches nothing (10_state.md R21), so this is the host's
write of that word to CMD, before every transaction already pending (log 9). -/
def State.withFetchWord (s : State) (nbits w : Nat) : State :=
  s.withCommand (tableWord nbits w)

end Sys2Proof.Machine
end

