-- ==== Sys2Proof/Safety.lean ====
section
/-! DEFINITION. The terms claims use: the invariant of a good state, runs of several steps, and what a host program and a
producer deliver. -/

namespace Sys2Proof.Safety

open Sys2Proof.Machine

/-- The ring registers of a ready ring (10_state.md R22, R24 to R27). -/
structure ReadyRing (s : State) : Prop where
  k_mem : s.k ∈ [1, 2, 4, 8, 16, 32, 64, 128]
  k_le : s.k ≤ s.sizes.kMax
  blen_pos : s.blen ≠ 0
  blen_mult : s.blen % 3 = 0
  blen_le : s.blen ≤ s.sizes.slotStride
  wr_lt : s.wr < s.k
  rd_lt : s.rd < s.k
  count_le : s.count ≤ 2 ^ s.sizes.cntW - 1

/-- The ring registers while RING_READY = 0 (10_state.md R45). -/
structure IdleRing (s : State) : Prop where
  k_zero : s.k = 0
  blen_zero : s.blen = 0
  wr_zero : s.wr = 0
  rd_zero : s.rd = 0
  count_zero : s.count = 0
  ovr_clear : s.ovr = false

/-- Each history holds T - 1 samples (10_state.md R39, 41_filter_bank.md R146). -/
def HistoriesFit (coef : Bank Taps) (hist : Bank (List Sample)) : Prop :=
  ∀ r : CascadeRate, (bankGet hist r).map List.length = (bankGet coef r).map (fun h => h.rest.length)

/-- The invariant: what the spec says of every state it gives the machine. -/
structure Inv (s : State) : Prop where
  /-- 00_scope.md R9. -/
  sizes : s.sizes.Valid
  /-- 10_state.md R22, R24 to R27. -/
  ready : s.ringReady = true → ReadyRing s
  /-- 10_state.md R45. -/
  idle : s.ringReady = false → IdleRing s
  /-- Every memory is in canonical form (log 17). -/
  canonical : ∀ sp : Space, Memory.wf (s.mem sp)
  /-- Every written byte is a byte of its space (20_memory.md R62). -/
  bounded : ∀ sp : Space, ∀ x ∈ s.mem sp, x.1 < spaceSize s.sizes sp
  /-- 10_state.md R39. -/
  histories : HistoriesFit s.filter.coef s.hist

/-- `n` steps, stopping at the first that does not answer a next state. -/
def run : Nat → State → Answer
  | 0, s => .next s
  | n + 1, s =>
    match step s with
    | .next t => run n t
    | .fault f => .fault f
    | .refused r => .refused r

/-- Commands executed one after the other, with nothing between them. -/
def execAll : List Instr → State → Answer
  | [], s => .next s
  | i :: rest, s =>
    match exec i s with
    | .next t => execAll rest t
    | .fault f => .fault f
    | .refused r => .refused r

/-- The next state of an answer, if it is one. -/
def nextState? : Answer → Option State
  | .next t => some t
  | .fault _ => none
  | .refused _ => none

/-- The host writes command `i` to CMD (10_state.md R35). -/
def Commands (e : Event) (i : Instr) : Prop :=
  ∃ c : Word, e = .hostWrite 0x0#32 .word c ∧ decode c = .ok i

/-- `e` is a push (40_ring.md R117). -/
def IsPush (e : Event) : Prop :=
  ∃ raw : List Byte, e = .blockReady raw

/-- The words that 30_encoding.md R100 calls illegal: a reserved opcode, or a reserved bit of the format (R92 to R96) of
the opcode is 1. -/
def IllegalWordPattern (c : Word) : Prop :=
  0xA ≤ field c 0 4 ∨
  (field c 0 4 ∈ [0x0, 0x2, 0x3, 0x4, 0x5, 0x6] ∧ field c 4 28 ≠ 0) ∨
  (field c 0 4 = 0x1 ∧ field c 12 4 ≠ 0) ∨
  (field c 0 4 = 0x7 ∧ field c 7 25 ≠ 0) ∨
  (field c 0 4 = 0x9 ∧ field c 4 7 ≠ 0)

/-- `D(r)` of every supported rate, 1 for native (30_encoding.md R97); 0 for the reserved code, which has none. -/
def rateDivisor : RateCode → Nat
  | .native => 1
  | .div2 => 2
  | .div4 => 4
  | .div8 => 8
  | .div12 => 12
  | .div16 => 16
  | .div24 => 24
  | .reserved => 0

/-- The checks of FB_DOWNSAMPLE that come before the unsupported combinations (41_filter_bank.md R166). -/
structure DownsampleAllowed (s : State) (slot rawlen : Nat) : Prop where
  fb_ready : s.fbReady = true
  ring_ready : s.ringReady = true
  slot_lt : slot < s.k
  whole : rawlen % 3 = 0
  len_le : rawlen ≤ s.blen

/-- DEPTH with its bytes per sample: 16 with 2, 24 with 3 (30_encoding.md R98). -/
def DepthBytes (depth b : Nat) : Prop :=
  (depth = 16 ∧ b = 2) ∨ (depth = 24 ∧ b = 3)

/-- Address `a` is in the window of `space` that starts at `base` (20_memory.md R63). -/
def InWindow (z : Sizes) (space : Space) (base a : Nat) : Prop :=
  base ≤ a ∧ a < base + spaceSize z space

/-- The address is mapped (20_memory.md R63). -/
def Mapped (z : Sizes) (a : Nat) : Prop :=
  a < 0x18 ∨ InWindow z .out 0x10000 a ∨ InWindow z .fxp 0x20000 a ∨ InWindow z .ring 0x100000 a

/-- How many of the events are pushes. -/
def pushCount : List Event → Nat
  | [] => 0
  | .blockReady _ :: rest => pushCount rest + 1
  | .hostRead _ _ :: rest => pushCount rest
  | .hostWrite _ _ _ :: rest => pushCount rest
  | .reset :: rest => pushCount rest

/-- The R44 relation between the cursors and the count. -/
def CursorsAgree (s : State) : Prop :=
  s.wr = (s.rd + s.count) % s.k

end Sys2Proof.Safety
end

