-- ==== Sys2Proof/Certificates/Slice0/Obligations.lean ====
section
/-! DEFINITION. The statements of this model for the provers. -/

open Sys2Proof Sys2Proof.Machine Sys2Proof.Safety

/-! ### Encoding -/

/-- Decoding the word of a well-formed command gives the command back, every operand at every value its field admits
(30_encoding.md R92 to R96, R99, R101). -/
def Obligations.DecodeUndoesEncode : Prop :=
  ∀ i : Instr, i.wellFormed = true → decode (encode i) = .ok i

/-- Each legal word is the word of exactly one well-formed command: no bit of it is dropped (30_encoding.md R92 to R96,
R101). -/
def Obligations.EncodeUndoesDecode : Prop :=
  ∀ (c : Word) (i : Instr), decode c = .ok i → i.wellFormed = true ∧ encode i = c

/-- 30_encoding.md R100: a word is illegal exactly when its opcode is reserved or a reserved bit of its format is 1, and
executing it sets E_ILLEGAL, writes ERR to RESULT and changes nothing else. -/
def Obligations.IllegalWordRaisesAndOnlyIllegalWordsAreRejected : Prop :=
  (∀ c : Word, (∃ e, decode c = .error e) ↔ IllegalWordPattern c) ∧
  (∀ (s : State) (c : Word) (rest : List Event), s.inbox = .hostWrite 0x0#32 .word c :: rest →
    IllegalWordPattern c →
    step s = .next { s with
      inbox := rest
      errors := s.errors ||| 0b0000001#7
      result := 0xFFFFFFFF#32 })

/-- 30_encoding.md R104: the spec's own encoding examples, both ways. -/
def Obligations.SpecExampleWordsEncodeAndDecode : Prop :=
  (encode (.ringInit 16 24768) = 0x60C00101#32 ∧ decode 0x60C00101#32 = .ok (.ringInit 16 24768)) ∧
  (encode (.ringInit 4 6) = 0x00060041#32 ∧ decode 0x00060041#32 = .ok (.ringInit 4 6)) ∧
  (encode .ringAvailable = 0x00000002#32 ∧ decode 0x00000002#32 = .ok .ringAvailable) ∧
  (encode .ringConsume = 0x00000003#32 ∧ decode 0x00000003#32 = .ok .ringConsume) ∧
  (encode .ringOvrRead = 0x00000004#32 ∧ decode 0x00000004#32 = .ok .ringOvrRead) ∧
  (encode .ringOvrClear = 0x00000005#32 ∧ decode 0x00000005#32 = .ok .ringOvrClear) ∧
  (encode .fbInit = 0x00000006#32 ∧ decode 0x00000006#32 = .ok .fbInit) ∧
  (encode (.fbSetTarget .div12) = 0x00000047#32 ∧ decode 0x00000047#32 = .ok (.fbSetTarget .div12)) ∧
  (encode (.fbDownsample 0 16 24768) = 0x60C08008#32 ∧ decode 0x60C08008#32 = .ok (.fbDownsample 0 16 24768)) ∧
  (encode (.fbDownsample 3 24 24768) = 0x60C0C038#32 ∧ decode 0x60C0C038#32 = .ok (.fbDownsample 3 24 24768)) ∧
  (encode (.fmtConvert 24 4) = 0x0004C009#32 ∧ decode 0x0004C009#32 = .ok (.fmtConvert 24 4)) ∧
  (encode .nop = 0x00000000#32 ∧ decode 0x00000000#32 = .ok .nop)

/-- 30_encoding.md R95, R96: the place of every field of formats FD and FC in the word, for all operands that fit. -/
def Obligations.FieldPlacesOfDownsampleAndConvert : Prop :=
  (∀ slot depth rawlen : Nat, slot < 2 ^ 7 → depth < 2 ^ 5 → rawlen < 2 ^ 16 →
    (encode (.fbDownsample slot depth rawlen)).toNat = 0x8 + slot * 2 ^ 4 + depth * 2 ^ 11 + rawlen * 2 ^ 16) ∧
  (∀ depth count : Nat, depth < 2 ^ 5 → count < 2 ^ 16 →
    (encode (.fmtConvert depth count)).toNat = 0x9 + depth * 2 ^ 11 + count * 2 ^ 16)

/-! ### A step -/

/-- 10_state.md R35: a write of a legal word to CMD executes the command it encodes, as one step; a read of CMD returns 0,
sets no error bit and executes nothing. -/
def Obligations.StepRunsTheCommandWrittenToCmd : Prop :=
  (∀ (s : State) (c : Word) (rest : List Event) (i : Instr), s.inbox = .hostWrite 0x0#32 .word c :: rest →
    decode c = .ok i → step s = exec i { s with inbox := rest }) ∧
  (∀ (s : State) (rest : List Event), s.inbox = .hostRead 0x0#32 .word :: rest →
    step s = .next { s with inbox := rest, readData := 0#32 })

/-- The model's choice (log 3): with no transaction pending a step changes nothing. 60_exceptions.md R215 says only that
MAGPIE-CORE takes no step of its own. -/
def Obligations.NothingHappensWithoutTransaction : Prop :=
  ∀ s : State, s.inbox = [] → step s = .next s

/-- 10_state.md R22, 70_reset_and_hazards.md R230: what hardware reset leaves, in State.reset and after a reset event. The
unspecified memories are left out; keeping the later transactions and the last read value is the model's choice (log 10). -/
def Obligations.HardwareResetValues : Prop :=
  (∀ (s : State) (rest : List Event), s.inbox = .reset :: rest →
    ∃ t, step s = .next t ∧ t.ringReady = false ∧ t.k = 0 ∧ t.blen = 0 ∧ t.wr = 0 ∧ t.rd = 0 ∧ t.count = 0 ∧
      t.ovr = false ∧ t.fbReady = false ∧ t.target = .native ∧ t.result = 0#32 ∧ t.errors = 0#7 ∧
      t.sizes = s.sizes ∧ t.filter = s.filter ∧ t.inbox = rest ∧ t.readData = s.readData) ∧
  (State.reset.ringReady = false ∧ State.reset.k = 0 ∧ State.reset.blen = 0 ∧ State.reset.wr = 0 ∧
    State.reset.rd = 0 ∧ State.reset.count = 0 ∧ State.reset.ovr = false ∧ State.reset.fbReady = false ∧
    State.reset.target = .native ∧ State.reset.result = 0#32 ∧ State.reset.errors = 0#7)

/-! ### Completion and frame of each command -/

/-- 42_format.md R190: NOP writes 0 to RESULT and changes nothing else; its word is the all-zero word. -/
def Obligations.NopOnlyClearsResult : Prop :=
  encode .nop = 0#32 ∧ ∀ s : State, exec .nop s = .next { s with result := 0#32 }

/-- 40_ring.md R112: RING_INIT is encoded in format FI; with legal operands it sets up the ring and changes nothing else
(the bytes of RING_MEM and the filter bank among what it keeps); with others it raises E_ARG and changes nothing but STATUS
and RESULT. -/
def Obligations.RingInitSetsUpRingOrRaisesArg : Prop :=
  (∀ cap blen : Nat, cap < 2 ^ 8 → blen < 2 ^ 16 →
    (encode (.ringInit cap blen)).toNat = 0x1 + cap * 2 ^ 4 + blen * 2 ^ 16) ∧
  ∀ (s : State) (cap blen : Nat), s.sizes.Valid →
    ((((∃ n : Nat, cap = 2 ^ n) ∧ cap ≤ s.sizes.kMax) ∧ blen ≠ 0 ∧ blen % 3 = 0 ∧ blen ≤ 3 * s.sizes.nMax) →
      exec (.ringInit cap blen) s = .next { s with
        k := cap, blen := blen, wr := 0, rd := 0, count := 0, ovr := false, ringReady := true, result := 0#32 }) ∧
    (¬(((∃ n : Nat, cap = 2 ^ n) ∧ cap ≤ s.sizes.kMax) ∧ blen ≠ 0 ∧ blen % 3 = 0 ∧ blen ≤ 3 * s.sizes.nMax) →
      exec (.ringInit cap blen) s = .next { s with
        errors := s.errors ||| 0b0010000#7, result := 0xFFFFFFFF#32 })

/-- 40_ring.md R120: RING_AVAILABLE is opcode 0x2 of format F0; it raises E_RING_UNINIT while the ring is not ready, and
otherwise returns COUNT, unclipped, and changes nothing else. -/
def Obligations.RingAvailableReturnsCount : Prop :=
  encode .ringAvailable = 0x00000002#32 ∧
  ∀ s : State,
    (s.ringReady = false → exec .ringAvailable s = .next { s with
      errors := s.errors ||| 0b0000010#7, result := 0xFFFFFFFF#32 }) ∧
    (s.ringReady = true → exec .ringAvailable s = .next { s with result := BitVec.ofNat 32 s.count }) ∧
    (Inv s → s.ringReady = true →
      (BitVec.ofNat 32 s.count).toNat = s.count ∧ s.count ≤ 2 ^ s.sizes.cntW - 1)

/-- 40_ring.md R121: RING_CONSUME is opcode 0x3 of format F0; it raises E_RING_UNINIT while the ring is not ready and E_EMPTY
on an empty ring; otherwise it returns the slot index at the read cursor, advances the cursor modulo K and decrements COUNT.
It changes nothing else. -/
def Obligations.RingConsumeReturnsSlotOrRaisesEmpty : Prop :=
  encode .ringConsume = 0x00000003#32 ∧
  ∀ s : State,
    (s.ringReady = false → exec .ringConsume s = .next { s with
      errors := s.errors ||| 0b0000010#7, result := 0xFFFFFFFF#32 }) ∧
    (s.ringReady = true → s.count = 0 → exec .ringConsume s = .next { s with
      errors := s.errors ||| 0b0001000#7, result := 0xFFFFFFFF#32 }) ∧
    (s.ringReady = true → s.count ≠ 0 → exec .ringConsume s = .next { s with
      rd := (s.rd + 1) % s.k, count := s.count - 1, result := BitVec.ofNat 32 s.rd })

/-- 40_ring.md R124, R125: RING_OVR_READ (opcode 0x4) and RING_OVR_CLEAR (opcode 0x5) raise E_RING_UNINIT while the ring is
not ready; otherwise the one returns OVR without clearing it, and the other clears it and leaves COUNT and the cursors alone;
neither changes anything else. -/
def Obligations.OverrunFlagCommands : Prop :=
  (encode .ringOvrRead = 0x00000004#32 ∧ encode .ringOvrClear = 0x00000005#32) ∧
  ∀ s : State,
    (s.ringReady = false → ∀ i ∈ [Instr.ringOvrRead, .ringOvrClear], exec i s = .next { s with
      errors := s.errors ||| 0b0000010#7, result := 0xFFFFFFFF#32 }) ∧
    (s.ringReady = true →
      exec .ringOvrRead s = .next { s with result := if s.ovr then 1#32 else 0#32 } ∧
      exec .ringOvrClear s = .next { s with ovr := false, result := 0#32 })

/-- 40_ring.md R110: every ring command but RING_INIT raises E_RING_UNINIT while the ring is not ready. -/
def Obligations.RingCommandsNeedReadyRing : Prop :=
  ∀ (s : State) (i : Instr), i ∈ [Instr.ringAvailable, .ringConsume, .ringOvrRead, .ringOvrClear] →
    s.ringReady = false →
    exec i s = .next { s with errors := s.errors ||| 0b0000010#7, result := 0xFFFFFFFF#32 }

/-- 41_filter_bank.md R160: FB_INIT is opcode 0x6 of format F0; it makes the filter bank ready and every history T - 1
zeros; TARGET, the ring and OUT are among what it keeps. -/
def Obligations.FbInitZeroesEveryHistory : Prop :=
  encode .fbInit = 0x00000006#32 ∧
  ∀ s : State, ∃ h : Bank (List Sample),
    exec .fbInit s = .next { s with hist := h, fbReady := true, result := 0#32 } ∧
    ∀ r : CascadeRate, bankGet h r = (bankGet s.filter.coef r).map (fun taps => List.replicate taps.rest.length 0#32)

/-- 41_filter_bank.md R162: FB_SET_TARGET is encoded in format FT; it writes TARGET, code 7 included, in every state, and no
history. -/
def Obligations.FbSetTargetWritesOnlyTarget : Prop :=
  (∀ rate : RateCode, (encode (.fbSetTarget rate)).toNat = 0x7 + rate.code * 2 ^ 4) ∧
  ∀ (s : State) (rate : RateCode), exec (.fbSetTarget rate) s = .next { s with target := rate, result := 0#32 }

/-- 41_filter_bank.md R166, 60_exceptions.md R207: FB_DOWNSAMPLE's error checks, in order, each precise. -/
def Obligations.DownsampleErrorsInOrder : Prop :=
  ∀ (s : State) (slot depth rawlen : Nat),
    (s.fbReady = false → exec (.fbDownsample slot depth rawlen) s = .next { s with
      errors := s.errors ||| 0b0000100#7, result := 0xFFFFFFFF#32 }) ∧
    (s.fbReady = true → s.ringReady = false → exec (.fbDownsample slot depth rawlen) s = .next { s with
      errors := s.errors ||| 0b0000010#7, result := 0xFFFFFFFF#32 }) ∧
    (s.fbReady = true → s.ringReady = true → (s.k ≤ slot ∨ rawlen % 3 ≠ 0 ∨ s.blen < rawlen) →
      exec (.fbDownsample slot depth rawlen) s = .next { s with
        errors := s.errors ||| 0b0010000#7, result := 0xFFFFFFFF#32 })

/-- 41_filter_bank.md R165: FB_DOWNSAMPLE with rate code 7 or a depth other than 16 and 24 returns 0 and changes no other
state. -/
def Obligations.UnsupportedCombinationIsNoOp : Prop :=
  ∀ (s : State) (slot depth rawlen : Nat), DownsampleAllowed s slot rawlen →
    (s.target = .reserved ∨ (depth ≠ 16 ∧ depth ≠ 24)) →
    exec (.fbDownsample slot depth rawlen) s = .next { s with result := 0#32 }

/-- 41_filter_bank.md R167: native rate at depth 24 is an identity copy of the slot's first RAWLEN bytes, the same bytes
that packing the widened samples gives; nothing but those OUT bytes and RESULT changes. -/
def Obligations.NativeDepth24IsIdentity : Prop :=
  ∀ (s : State) (slot rawlen : Nat), Inv s → DownsampleAllowed s slot rawlen → s.target = .native →
    ∃ m : Memory,
      exec (.fbDownsample slot 24 rawlen) s = .next { s with outMem := m, result := BitVec.ofNat 32 rawlen } ∧
      (∀ a, a < rawlen → State.byteAt { s with outMem := m } .out a = s.byteAt .ring (slot * (3 * s.sizes.nMax) + a)) ∧
      (∀ a, rawlen ≤ a → State.byteAt { s with outMem := m } .out a = s.byteAt .out a) ∧
      packBytes .d24 (s.rawSamples (slot * (3 * s.sizes.nMax)) (rawlen / 3)) =
        s.bytesAt .ring (slot * (3 * s.sizes.nMax)) rawlen

/-- 41_filter_bank.md R168: native rate at depth 16 keeps, of every 3-byte ring sample, exactly its two most-significant
bytes in order; nothing but those OUT bytes and RESULT changes. -/
def Obligations.NativeDepth16KeepsTopTwoBytes : Prop :=
  ∀ (s : State) (slot rawlen : Nat), Inv s → DownsampleAllowed s slot rawlen → s.target = .native →
    ∃ m : Memory,
      exec (.fbDownsample slot 16 rawlen) s = .next { s with
        outMem := m, result := BitVec.ofNat 32 (rawlen / 3 * 2) } ∧
      (∀ i, i < rawlen / 3 →
        State.byteAt { s with outMem := m } .out (2 * i) =
          s.byteAt .ring (slot * (3 * s.sizes.nMax) + 3 * i + 1) ∧
        State.byteAt { s with outMem := m } .out (2 * i + 1) =
          s.byteAt .ring (slot * (3 * s.sizes.nMax) + 3 * i + 2)) ∧
      (∀ a, rawlen / 3 * 2 ≤ a → State.byteAt { s with outMem := m } .out a = s.byteAt .out a)

/-- 41_filter_bank.md R166, R152, R182 to R184: FB_DOWNSAMPLE at a rate with a cascade writes, for each sample of the
cascade's output on the widened block, its top two (depth 16) or three (depth 24) bytes, and leaves that cascade the
histories of the run. The run reduces with the machine's FIR_REDUCE (00_scope.md R10). -/
def Obligations.CascadeDownsampleWritesCascadeOutput : Prop :=
  ∀ (s : State) (slot depth b rawlen : Nat) (r : CascadeRate), Inv s → DownsampleAllowed s slot rawlen →
    DepthBytes depth b → routeOf s.target = .cascade r →
    ∃ (m : Memory) (h : Bank (List Sample)) (x y : List Sample),
      x = (List.range (rawlen / 3)).map (fun i =>
        s.byteAt .ring (slot * (3 * s.sizes.nMax) + 3 * i + 2) ++
        s.byteAt .ring (slot * (3 * s.sizes.nMax) + 3 * i + 1) ++
        s.byteAt .ring (slot * (3 * s.sizes.nMax) + 3 * i) ++ 0#8) ∧
      y = (cascadeRun (reduceBy s.filter.reduce) (stagesWith s.filter s.hist r) x).2 ∧
      bankGet h r = (cascadeRun (reduceBy s.filter.reduce) (stagesWith s.filter s.hist r) x).1 ∧
      exec (.fbDownsample slot depth rawlen) s = .next { s with
        outMem := m, hist := h, result := BitVec.ofNat 32 (y.length * b) } ∧
      (∀ i c, i < y.length → c < b →
        State.byteAt { s with outMem := m } .out (i * b + c) =
          BitVec.ofNat 8 ((y.getD i 0#32).toNat / 256 ^ (4 - b + c))) ∧
      (∀ a, y.length * b ≤ a → State.byteAt { s with outMem := m } .out a = s.byteAt .out a) ∧
      (∀ r', r' ≠ r → bankGet h r' = bankGet s.hist r')

/-- 41_filter_bank.md R169, R170: for every supported combination FB_DOWNSAMPLE returns `floor(n / D) * bps`, writes no OUT
byte at or above that length, writes the histories of no other cascade than TARGET's, and nothing else. -/
def Obligations.DownsampleLengthLawAndFrame : Prop :=
  ∀ (s : State) (slot depth b rawlen : Nat), Inv s → DownsampleAllowed s slot rawlen → DepthBytes depth b →
    s.target ≠ .reserved →
    ∃ (m : Memory) (h : Bank (List Sample)),
      exec (.fbDownsample slot depth rawlen) s = .next { s with
        outMem := m, hist := h, result := BitVec.ofNat 32 (rawlen / 3 / rateDivisor s.target * b) } ∧
      (∀ a, rawlen / 3 / rateDivisor s.target * b ≤ a →
        State.byteAt { s with outMem := m } .out a = s.byteAt .out a) ∧
      (∀ r, routeOf s.target ≠ .cascade r → bankGet h r = bankGet s.hist r)

/-- 42_format.md R186, R182 to R184: FMT_CONVERT keeps the most-significant `bps` bytes of each FXP word, in order, needs
neither part ready, and changes nothing but those OUT bytes and RESULT. -/
def Obligations.FmtConvertKeepsTopBytes : Prop :=
  ∀ (s : State) (depth b count : Nat), count ≤ s.sizes.nMax → DepthBytes depth b →
    ∃ m : Memory,
      exec (.fmtConvert depth count) s = .next { s with outMem := m, result := BitVec.ofNat 32 (count * b) } ∧
      (∀ i c, i < count → c < b →
        State.byteAt { s with outMem := m } .out (i * b + c) = s.byteAt .fxp (4 * i + (4 - b) + c)) ∧
      (∀ a, count * b ≤ a → State.byteAt { s with outMem := m } .out a = s.byteAt .out a)

/-- 42_format.md R186, 60_exceptions.md R207: FMT_CONVERT raises E_ARG for a COUNT above N_MAX, and otherwise returns 0 and
changes nothing else for an unsupported depth. -/
def Obligations.FmtConvertErrorAndNoOp : Prop :=
  ∀ (s : State) (depth count : Nat),
    (s.sizes.nMax < count → exec (.fmtConvert depth count) s = .next { s with
      errors := s.errors ||| 0b0010000#7, result := 0xFFFFFFFF#32 }) ∧
    (count ≤ s.sizes.nMax → depth ≠ 16 → depth ≠ 24 →
      exec (.fmtConvert depth count) s = .next { s with result := 0#32 })

/-! ### The producer -/

/-- 40_ring.md R114, R115, R117 to R119: a block of BLEN bytes on a ready ring is stored in the slot at the write cursor
with each sample's first and last byte swapped; WR, COUNT and OVR follow; nothing else changes. -/
def Obligations.PushStoresSwappedBlock : Prop :=
  ∀ (s : State) (raw : List Byte) (rest : List Event), Inv s → s.inbox = .blockReady raw :: rest →
    s.ringReady = true → raw.length = s.blen →
    ∃ (m : Memory) (n : Nat),
      n = (if s.count < 2 ^ s.sizes.cntW - 1 then s.count + 1 else s.count) ∧
      step s = .next { s with
        inbox := rest, ringMem := m, wr := (s.wr + 1) % s.k, count := n, ovr := s.ovr || decide (s.k < n) } ∧
      (∀ j c, j < s.blen / 3 → c < 3 →
        State.byteAt { s with ringMem := m } .ring (s.wr * (3 * s.sizes.nMax) + 3 * j + c) =
          raw.getD (3 * j + (2 - c)) 0#8) ∧
      (∀ a, a < s.wr * (3 * s.sizes.nMax) ∨ s.wr * (3 * s.sizes.nMax) + s.blen ≤ a →
        State.byteAt { s with ringMem := m } .ring a = s.byteAt .ring a)

/-- 40_ring.md R117, 60_exceptions.md R201: a push while the ring is not ready is dropped and sets E_PUSH_DROP, whatever its
length; RESULT and everything else stay. -/
def Obligations.PushBeforeInitIsDropped : Prop :=
  ∀ (s : State) (raw : List Byte) (rest : List Event), s.inbox = .blockReady raw :: rest → s.ringReady = false →
    step s = .next { s with inbox := rest, errors := s.errors ||| 0b1000000#7 }

/-- The model's choice (log 11), from 40_ring.md R116 and U5: a push of another length than BLEN on a ready ring has no
transition. -/
def Obligations.PushOfWrongLengthIsRefused : Prop :=
  ∀ (s : State) (raw : List Byte) (rest : List Event), s.inbox = .blockReady raw :: rest → s.ringReady = true →
    raw.length ≠ s.blen → step s = .refused .blockLength

/-- 40_ring.md R123: below saturation a push on a ready ring raises COUNT by exactly 1, a RING_CONSUME that returns a slot
lowers it by exactly 1, and nothing else moves it but RING_INIT and reset, which zero it. -/
def Obligations.CountMovesByOnePerPushAndConsume : Prop :=
  ∀ (s t : State) (e : Event) (rest : List Event), s.inbox = e :: rest → step s = .next t →
    (IsPush e → s.ringReady = true → s.count < 2 ^ s.sizes.cntW - 1 → t.count = s.count + 1) ∧
    (Commands e .ringConsume → s.ringReady = true → s.count ≠ 0 → t.count + 1 = s.count) ∧
    (¬ IsPush e → ¬ Commands e .ringConsume →
      t.count = s.count ∨ (t.count = 0 ∧ (e = .reset ∨ ∃ cap blen, Commands e (.ringInit cap blen))))

/-- 10_state.md R44: on a ready ring `WR = (RD + COUNT) mod K` is kept by every step but a push at a saturated COUNT, and a
RING_INIT that sets up a ring makes it hold. -/
def Obligations.CursorRelationKeptBelowSaturation : Prop :=
  ∀ (s t : State) (e : Event) (rest : List Event), Inv s → s.inbox = e :: rest → step s = .next t →
    (s.ringReady = true → CursorsAgree s → ¬(IsPush e ∧ s.count = 2 ^ s.sizes.cntW - 1) → t.ringReady = true →
      CursorsAgree t) ∧
    (∀ cap blen, Commands e (.ringInit cap blen) → t.result = 0#32 → CursorsAgree t)

/-- 70_reset_and_hazards.md R242: RING_CONSUME returns slot `s.rd` and leaves COUNT = c < K. Whatever consumes come in
between, the (K - c)-th push after it writes that slot again, and sets no overrun flag. -/
def Obligations.ClaimedSlotIsOverwrittenSilently : Prop :=
  ∀ (s t : State) (evs rest : List Event) (last : List Byte), Inv s → s.ringReady = true → CursorsAgree s →
    s.count ≠ 0 → s.count - 1 < s.k → exec .ringConsume s = .next t →
    (∀ e ∈ evs, Commands e .ringConsume ∨ ∃ raw, e = .blockReady raw ∧ raw.length = s.blen) →
    pushCount evs + 1 = s.k - t.count → last.length = s.blen →
    ∃ u v : State,
      run evs.length { t with inbox := evs ++ .blockReady last :: rest } = .next u ∧
      step u = .next v ∧
      u.wr = s.rd ∧ v.ovr = s.ovr ∧ v.inbox = rest ∧
      ∀ j c, j < s.blen / 3 → c < 3 →
        v.byteAt .ring (s.rd * (3 * s.sizes.nMax) + 3 * j + c) = last.getD (3 * j + (2 - c)) 0#8

/-! ### The filter engine -/

/-- 41_filter_bank.md R151 (log 8): the default FIR_REDUCE for every accumulator. With `w` the accumulator wrapped to 64
bits, the result is the 32-bit wrap of `floor(w / 2^31)`: nothing saturates. Where neither wrap acts it is the exact
quotient, rounded toward minus infinity. -/
def Obligations.FirReduceWrapsAndFloorsEveryAccumulator : Prop :=
  reduceBy .standard = firReduce ∧
  (∀ acc w : Int, -(2 ^ 63) ≤ w → w < 2 ^ 63 → (2 ^ 64 : Int) ∣ acc - w →
    (2 ^ 32 : Int) ∣ w / 2 ^ 31 - (firReduce acc).toInt) ∧
  (∀ acc : Int, -(2 ^ 62) ≤ acc → acc < 2 ^ 62 → (firReduce acc).toInt = acc / 2 ^ 31)

/-- 41_filter_bank.md R146 to R149: what one stage run gives, for every FIR_REDUCE. Output `k` is FIR_REDUCE of the sum over
`j < T` of `h[j]` times the sample `j` older than the input at index `kM + M - 1`: an input of this call while there is one,
else a sample of the history, the newest of which stands last. The history it leaves is the last T - 1 samples of the old
history and the input, oldest first. -/
def Obligations.StageOutputsAndHistoryAreTheFirOfTheInput : Prop :=
  ∀ (reduce : Int → Sample) (st : Stage) (x : List Sample) (M : Nat),
    st.history.length = st.taps.rest.length →
    ((st.factor = .two ∧ M = 2) ∨ (st.factor = .three ∧ M = 3)) →
    (stageOutput reduce st x).length = x.length / M ∧
    (∀ k, k < x.length / M →
      (stageOutput reduce st x).getD k 0#32 =
        reduce (∑ j ∈ Finset.range (st.taps.rest.length + 1),
          ((st.taps.first :: st.taps.rest).getD j 0#32).toInt *
            (if j ≤ k * M + M - 1 then x.getD (k * M + M - 1 - j) 0#32
              else st.history.getD (st.taps.rest.length - (j - (k * M + M - 1))) 0#32).toInt)) ∧
    (stageHistory st x).length = st.taps.rest.length ∧
    (∀ i, i < st.taps.rest.length →
      (stageHistory st x).getD i 0#32 =
        if i + x.length < st.taps.rest.length then st.history.getD (i + x.length) 0#32
        else x.getD (i + x.length - st.taps.rest.length) 0#32)

/-- 41_filter_bank.md R152, R154, R155: a cascade run is its `S` stages in order, the first on the input and each other on
the output of the one before. Stage `n` has the factor of R155's table, the coefficients and the history at place `n`, and
leaves its own history there. -/
def Obligations.CascadeRunsItsStagesInOrder : Prop :=
  ∀ (reduce : Int → Sample) (p : FilterParams) (hist : Bank (List Sample)) (r : CascadeRate) (S : Nat) (x : List Sample),
    (r, S) ∈ [(CascadeRate.div2, 1), (.div4, 2), (.div8, 3), (.div12, 3), (.div16, 4), (.div24, 4)] →
    ∃ v : Nat → List Sample,
      v 0 = x ∧
      (cascadeRun reduce (stagesWith p hist r) x).2 = v S ∧
      (cascadeRun reduce (stagesWith p hist r) x).1.length = S ∧
      ∀ n, n < S → ∃ st : Stage,
        st.factor =
          (if (r = .div12 ∧ n = p.pos3Div12.val) ∨ (r = .div24 ∧ n = p.pos3Div24.val) then .three else .two) ∧
        (bankGet p.coef r)[n]? = some st.taps ∧
        (bankGet hist r)[n]? = some st.history ∧
        v (n + 1) = stageOutput reduce st (v n) ∧
        (cascadeRun reduce (stagesWith p hist r) x).1[n]? = some (stageHistory st (v n))

/-- 41_filter_bank.md R150: where a call's input is a whole number of groups, a stage's outputs over two calls are its
outputs over the concatenated input, and so is the history it is left with, for every FIR_REDUCE. -/
def Obligations.StageContinuity : Prop :=
  ∀ (reduce : Int → Sample) (st : Stage) (x y : List Sample), st.history.length = st.taps.rest.length →
    x.length % factorValue st.factor = 0 →
    stageOutput reduce st (x ++ y) =
      stageOutput reduce st x ++ stageOutput reduce { st with history := stageHistory st x } y ∧
    stageHistory st (x ++ y) = stageHistory { st with history := stageHistory st x } y

/-- 41_filter_bank.md R150, R153, 70_reset_and_hazards.md R248: the same for a whole cascade, when the first call's sample
count is a multiple of D(r). -/
def Obligations.CascadeContinuity : Prop :=
  ∀ (reduce : Int → Sample) (p : FilterParams) (hist : Bank (List Sample)) (r : CascadeRate) (x y : List Sample),
    HistoriesFit p.coef hist → x.length % divisor r = 0 →
    ∃ hist' : Bank (List Sample),
      hist' = bankPut hist r (cascadeRun reduce (stagesWith p hist r) x).1 ∧
      (cascadeRun reduce (stagesWith p hist r) (x ++ y)).2 =
        (cascadeRun reduce (stagesWith p hist r) x).2 ++ (cascadeRun reduce (stagesWith p hist' r) y).2 ∧
      (cascadeRun reduce (stagesWith p hist r) (x ++ y)).1 = (cascadeRun reduce (stagesWith p hist' r) y).1

/-- 41_filter_bank.md R163: the switching law. A, B, A on the same slot leaves in OUT for the last call the same bytes, and
the same RESULT, as the second call of A, A. -/
def Obligations.SwitchingLaw : Prop :=
  ∀ (s : State) (a b : RateCode) (slot depth rawlen : Nat), Inv s → a ≠ b →
    ∃ u v : State,
      execAll [.fbSetTarget a, .fbDownsample slot depth rawlen, .fbSetTarget b, .fbDownsample slot depth rawlen,
        .fbSetTarget a, .fbDownsample slot depth rawlen] s = .next u ∧
      execAll [.fbSetTarget a, .fbDownsample slot depth rawlen, .fbDownsample slot depth rawlen] s = .next v ∧
      u.result = v.result ∧
      ∀ n, n < v.result.toNat → u.byteAt .out n = v.byteAt .out n

/-- 70_reset_and_hazards.md R252: FB_DOWNSAMPLE reads of the ring only RING_READY, K, BLEN and the bytes of its slot: the
cursors, COUNT, OVR and every other byte of the ring do not matter to what it does. -/
def Obligations.DownsampleReadsOnlyItsSlot : Prop :=
  ∀ (s t : State) (slot depth rawlen wr rd count : Nat) (ovr : Bool) (m : Memory),
    (∀ a, a < s.blen → State.byteAt { s with ringMem := m } .ring (slot * (3 * s.sizes.nMax) + a) =
      s.byteAt .ring (slot * (3 * s.sizes.nMax) + a)) →
    exec (.fbDownsample slot depth rawlen) s = .next t →
    exec (.fbDownsample slot depth rawlen)
        { s with wr := wr, rd := rd, count := count, ovr := ovr, ringMem := m } =
      .next { t with wr := wr, rd := rd, count := count, ovr := ovr, ringMem := m }

/-- 42_format.md R185: packing a widened sample at depth 24 gives back its three bytes, at depth 16 its upper two; as
numbers, truncation undoes widening and shifts toward minus infinity. -/
def Obligations.WidenTruncateRoundTrip : Prop :=
  (∀ u : RawSample, (trunc24 (widen24 u)).toInt = u.toInt ∧ (trunc16 (widen24 u)).toInt = u.toInt / 2 ^ 8) ∧
  (∀ b0 b1 b2 : Byte, packSample .d24 (widen24 (b2 ++ b1 ++ b0)) = [b0, b1, b2] ∧
    packSample .d16 (widen24 (b2 ++ b1 ++ b0)) = [b1, b2])

/-! ### The host bus -/

/-- 20_memory.md R68: a narrow, misaligned or unmapped access, or a write to a read-only place, is not performed: it sets
E_BUS and changes nothing else, and a read of this kind returns 0. (The returned value stands in `readData`, log 2.) -/
def Obligations.BusErrorsChangeOnlyEBus : Prop :=
  (∀ (s : State) (a : Word) (size : AccessSize) (rest : List Event),
    s.inbox = .hostRead a size :: rest →
    (size ≠ .word ∨ a.toNat % 4 ≠ 0 ∨ ¬ Mapped s.sizes a.toNat) →
    step s = .next { s with inbox := rest, errors := s.errors ||| 0b0100000#7, readData := 0#32 }) ∧
  (∀ (s : State) (a : Word) (size : AccessSize) (v : Word) (rest : List Event), s.sizes.Valid →
    s.inbox = .hostWrite a size v :: rest →
    (size ≠ .word ∨ a.toNat % 4 ≠ 0 ∨ ¬ Mapped s.sizes a.toNat ∨ a.toNat ∈ [0x4, 0xC, 0x10, 0x14] ∨
      InWindow s.sizes .out 0x10000 a.toNat ∨ InWindow s.sizes .ring 0x100000 a.toNat) →
    step s = .next { s with inbox := rest, errors := s.errors ||| 0b0100000#7 })

/-- 20_memory.md R67, 10_state.md R30 to R34: what reading each register returns, bit by bit; no read changes any state of
the machine. -/
def Obligations.RegisterReads : Prop :=
  ∀ (s : State) (a : Word) (rest : List Event), Inv s → s.inbox = .hostRead a .word :: rest →
    a.toNat ∈ [0x4, 0x8, 0xC, 0x10, 0x14] →
    ∃ w : Word, step s = .next { s with inbox := rest, readData := w } ∧
      (a = 0x4#32 → w = s.result) ∧
      (a = 0x8#32 → w.getLsbD 0 = s.ringReady ∧ w.getLsbD 1 = s.fbReady ∧
        (∀ i, i < 7 → w.getLsbD (8 + i) = s.errors.getLsbD i) ∧
        (∀ i, 2 ≤ i → i < 8 → w.getLsbD i = false) ∧ (∀ i, 15 ≤ i → w.getLsbD i = false)) ∧
      (a = 0xC#32 → w.toNat = s.blen * 2 ^ 16 + s.k) ∧
      (a = 0x10#32 → w.toNat = s.target.code) ∧
      (a = 0x14#32 → w.toNat = s.sizes.nMax * 2 ^ 16 + s.sizes.cntW * 2 ^ 8 + s.sizes.kMax)

/-- 20_memory.md R64 to R66, R70: a performed read in a window returns the four bytes at its offset, little-endian, and
changes no state of the machine. -/
def Obligations.WindowReadsAreLittleEndian : Prop :=
  ∀ (s : State) (a : Word) (rest : List Event) (sp : Space) (base : Nat), s.sizes.Valid →
    s.inbox = .hostRead a .word :: rest → a.toNat % 4 = 0 →
    ((sp = .out ∧ base = 0x10000) ∨ (sp = .fxp ∧ base = 0x20000) ∨ (sp = .ring ∧ base = 0x100000)) →
    InWindow s.sizes sp base a.toNat →
    step s = .next { s with
      inbox := rest
      readData := s.byteAt sp (a.toNat - base + 3) ++ s.byteAt sp (a.toNat - base + 2) ++
        s.byteAt sp (a.toNat - base + 1) ++ s.byteAt sp (a.toNat - base) }

/-- 20_memory.md R65: a performed write in the FXP window, whatever is pending after it, writes its four bytes,
little-endian, and changes nothing else; a read of the same address that comes next returns the value written. -/
def Obligations.FxpWriteStoresAndReadsBack : Prop :=
  ∀ (s : State) (a v : Word) (rest : List Event), s.sizes.Valid →
    s.inbox = .hostWrite a .word v :: rest → a.toNat % 4 = 0 → InWindow s.sizes .fxp 0x20000 a.toNat →
    ∃ m : Memory,
      step s = .next { s with inbox := rest, fxpIn := m } ∧
      (∀ c, c < 4 → State.byteAt { s with fxpIn := m } .fxp (a.toNat - 0x20000 + c) = v.extractLsb' (8 * c) 8) ∧
      (∀ o, o < a.toNat - 0x20000 ∨ a.toNat - 0x20000 + 4 ≤ o →
        State.byteAt { s with fxpIn := m } .fxp o = s.byteAt .fxp o) ∧
      (∀ later, rest = .hostRead a .word :: later →
        step { s with inbox := rest, fxpIn := m } = .next { s with inbox := later, fxpIn := m, readData := v })

/-- 20_memory.md R67, 10_state.md R31: a host write to STATUS clears exactly the error bits it has a 1 for, and changes
nothing else. -/
def Obligations.StatusWriteClearsOnes : Prop :=
  ∀ (s : State) (v : Word) (rest : List Event), s.inbox = .hostWrite 0x8#32 .word v :: rest →
    ∃ e : BitVec 7, step s = .next { s with inbox := rest, errors := e } ∧
      ∀ i, i < 7 → e.getLsbD i = (s.errors.getLsbD i && !v.getLsbD (8 + i))

/-! ### Rules of the whole machine -/

/-- 10_state.md R31, 60_exceptions.md R208: an error bit, once set, is cleared only by a host write of a 1 to it in STATUS or
by reset; no command clears one. -/
def Obligations.ErrorBitsAreSticky : Prop :=
  (∀ (i : Instr) (s t : State) (n : Nat), exec i s = .next t → s.errors.getLsbD n = true →
    t.errors.getLsbD n = true) ∧
  (∀ (s t : State) (e : Event) (rest : List Event) (n : Nat), s.inbox = e :: rest → step s = .next t →
    s.errors.getLsbD n = true → t.errors.getLsbD n = false →
    e = .reset ∨ ∃ v : Word, e = .hostWrite 0x8#32 .word v ∧ v.getLsbD (8 + n) = true)

/-- 60_exceptions.md R203, 70_reset_and_hazards.md R244: in a good state a command that leaves ERR in RESULT, or a STATUS bit
it found clear, has raised one error: it changed that STATUS bit and RESULT and nothing else. -/
def Obligations.ErrorsArePrecise : Prop :=
  ∀ (i : Instr) (s t : State), Inv s → exec i s = .next t →
    (t.result = 0xFFFFFFFF#32 ∨ t.errors ≠ s.errors) →
    ∃ n, n < 7 ∧ t = { s with errors := s.errors ||| (1#7 <<< n), result := 0xFFFFFFFF#32 }

/-- 10_state.md R28: only RING_OVR_CLEAR and RING_INIT (and reset) clear OVR, and only a push sets it. -/
def Obligations.OverrunFlagWriters : Prop :=
  ∀ (s t : State) (e : Event) (rest : List Event), s.inbox = e :: rest → step s = .next t →
    (s.ovr = true → t.ovr = false →
      e = .reset ∨ Commands e .ringOvrClear ∨ ∃ cap blen, Commands e (.ringInit cap blen)) ∧
    (s.ovr = false → t.ovr = true → IsPush e)

/-- 70_reset_and_hazards.md R234: reset is the only event that clears RING_READY or FB_READY, RING_INIT touches nothing of
the filter bank and FB_INIT nothing of the ring. -/
def Obligations.ReadinessFallsOnlyAtReset : Prop :=
  (∀ (s t : State) (e : Event) (rest : List Event), s.inbox = e :: rest → step s = .next t →
    ((s.ringReady = true ∧ t.ringReady = false) ∨ (s.fbReady = true ∧ t.fbReady = false)) → e = .reset) ∧
  (∀ (s t : State) (cap blen : Nat), exec (.ringInit cap blen) s = .next t →
    t.fbReady = s.fbReady ∧ t.target = s.target ∧ t.hist = s.hist ∧ t.outMem = s.outMem) ∧
  (∀ s t : State, exec .fbInit s = .next t →
    t.ringReady = s.ringReady ∧ t.k = s.k ∧ t.blen = s.blen ∧ t.wr = s.wr ∧ t.rd = s.rd ∧ t.count = s.count ∧
      t.ovr = s.ovr ∧ t.ringMem = s.ringMem)

/-- 20_memory.md R62: RING bytes are written only by pushes, OUT bytes only by FB_DOWNSAMPLE and FMT_CONVERT, FXP bytes only
by host writes in the FXP window (reset, which draws all three afresh, aside). -/
def Obligations.EachMemoryHasItsWriters : Prop :=
  ∀ (s t : State) (e : Event) (rest : List Event), s.inbox = e :: rest → step s = .next t → e ≠ .reset →
    (t.ringMem ≠ s.ringMem → IsPush e) ∧
    (t.outMem ≠ s.outMem → (∃ slot depth rawlen, Commands e (.fbDownsample slot depth rawlen)) ∨
      ∃ depth count, Commands e (.fmtConvert depth count)) ∧
    (t.fxpIn ≠ s.fxpIn → ∃ a v, e = .hostWrite a .word v ∧ InWindow s.sizes .fxp 0x20000 a.toNat)

/-- 41_filter_bank.md R161, 10_state.md R36, R37: only FB_INIT and FB_DOWNSAMPLE write a history, only FB_INIT makes the bank
ready, only FB_SET_TARGET writes TARGET (reset aside). -/
def Obligations.FilterStateHasItsWriters : Prop :=
  ∀ (s t : State) (e : Event) (rest : List Event), s.inbox = e :: rest → step s = .next t → e ≠ .reset →
    (t.hist ≠ s.hist → Commands e .fbInit ∨ ∃ slot depth rawlen, Commands e (.fbDownsample slot depth rawlen)) ∧
    (t.fbReady ≠ s.fbReady → Commands e .fbInit) ∧
    (t.target ≠ s.target → ∃ rate, Commands e (.fbSetTarget rate))

/-- 10_state.md R30, 40_ring.md R111: RESULT is written only by a CMD write (and reset): never by a push, a read or any
other host write. -/
def Obligations.OnlyCommandsWriteResult : Prop :=
  ∀ (s t : State) (e : Event) (rest : List Event), s.inbox = e :: rest → step s = .next t →
    t.result ≠ s.result → e = .reset ∨ ∃ c : Word, e = .hostWrite 0x0#32 .word c

/-- 00_scope.md R9, R10, 10_state.md R34, R38: no step, reset included, changes a parameter, COEF, or what PARAM reads. -/
def Obligations.ParametersNeverChange : Prop :=
  ∀ s t : State, step s = .next t → t.sizes = s.sizes ∧ t.filter = s.filter ∧ t.paramWord = s.paramWord

/-! ### The invariant -/

/-- 10_state.md R22, R24 to R27, R39, R45, 20_memory.md R62: every step from a good state leads to a good state: a ready
ring's registers in their ranges, an idle ring's all zero, every memory canonical and inside its space, every history T - 1
samples long. -/
def Obligations.StepKeepsInvariant : Prop :=
  ∀ s t : State, Inv s → step s = .next t → Inv t

/-- The state after reset is a good state (10_state.md R22, R45). That its sizes are R9's defaults is the model's choice
(log 6). -/
def Obligations.ResetMeetsInvariant : Prop :=
  Inv State.reset

/-- 40_ring.md R111, 60_exceptions.md R215, 70_reset_and_hazards.md R240: from a good state every transaction completes in
one step, provided the producer keeps its duty (R116): no command or push ever runs off a memory. -/
def Obligations.GoodStatesAlwaysStep : Prop :=
  ∀ s : State, Inv s →
    (∀ raw rest, s.inbox = .blockReady raw :: rest → s.ringReady = true → raw.length = s.blen) →
    ∃ t : State, step s = .next t
end

