-- ==== Sys2Proof/Laws/State.lean ====
section
/-! SUPPORT. One lemma per field per update of the state, true by unfolding, so that no later proof unfolds a record
update. -/

namespace Sys2Proof.Laws

open Sys2Proof.Machine

/-! `State.setError` -/

@[simp] theorem setError_sizes (s : State) (e : ErrorCause) : (s.setError e).sizes = s.sizes := rfl
@[simp] theorem setError_filter (s : State) (e : ErrorCause) : (s.setError e).filter = s.filter := rfl
@[simp] theorem setError_ringReady (s : State) (e : ErrorCause) : (s.setError e).ringReady = s.ringReady := rfl
@[simp] theorem setError_k (s : State) (e : ErrorCause) : (s.setError e).k = s.k := rfl
@[simp] theorem setError_blen (s : State) (e : ErrorCause) : (s.setError e).blen = s.blen := rfl
@[simp] theorem setError_wr (s : State) (e : ErrorCause) : (s.setError e).wr = s.wr := rfl
@[simp] theorem setError_rd (s : State) (e : ErrorCause) : (s.setError e).rd = s.rd := rfl
@[simp] theorem setError_count (s : State) (e : ErrorCause) : (s.setError e).count = s.count := rfl
@[simp] theorem setError_ovr (s : State) (e : ErrorCause) : (s.setError e).ovr = s.ovr := rfl
@[simp] theorem setError_ringMem (s : State) (e : ErrorCause) : (s.setError e).ringMem = s.ringMem := rfl
@[simp] theorem setError_fbReady (s : State) (e : ErrorCause) : (s.setError e).fbReady = s.fbReady := rfl
@[simp] theorem setError_target (s : State) (e : ErrorCause) : (s.setError e).target = s.target := rfl
@[simp] theorem setError_hist (s : State) (e : ErrorCause) : (s.setError e).hist = s.hist := rfl
@[simp] theorem setError_outMem (s : State) (e : ErrorCause) : (s.setError e).outMem = s.outMem := rfl
@[simp] theorem setError_fxpIn (s : State) (e : ErrorCause) : (s.setError e).fxpIn = s.fxpIn := rfl
@[simp] theorem setError_result (s : State) (e : ErrorCause) : (s.setError e).result = s.result := rfl
@[simp] theorem setError_errors (s : State) (e : ErrorCause) : (s.setError e).errors = withError s.errors e := rfl
@[simp] theorem setError_inbox (s : State) (e : ErrorCause) : (s.setError e).inbox = s.inbox := rfl
@[simp] theorem setError_readData (s : State) (e : ErrorCause) : (s.setError e).readData = s.readData := rfl
@[simp] theorem setError_resets (s : State) (e : ErrorCause) : (s.setError e).resets = s.resets := rfl

/-! `State.clearErrors` -/

@[simp] theorem clearErrors_sizes (s : State) (v : Word) : (s.clearErrors v).sizes = s.sizes := rfl
@[simp] theorem clearErrors_filter (s : State) (v : Word) : (s.clearErrors v).filter = s.filter := rfl
@[simp] theorem clearErrors_ringReady (s : State) (v : Word) : (s.clearErrors v).ringReady = s.ringReady := rfl
@[simp] theorem clearErrors_k (s : State) (v : Word) : (s.clearErrors v).k = s.k := rfl
@[simp] theorem clearErrors_blen (s : State) (v : Word) : (s.clearErrors v).blen = s.blen := rfl
@[simp] theorem clearErrors_wr (s : State) (v : Word) : (s.clearErrors v).wr = s.wr := rfl
@[simp] theorem clearErrors_rd (s : State) (v : Word) : (s.clearErrors v).rd = s.rd := rfl
@[simp] theorem clearErrors_count (s : State) (v : Word) : (s.clearErrors v).count = s.count := rfl
@[simp] theorem clearErrors_ovr (s : State) (v : Word) : (s.clearErrors v).ovr = s.ovr := rfl
@[simp] theorem clearErrors_ringMem (s : State) (v : Word) : (s.clearErrors v).ringMem = s.ringMem := rfl
@[simp] theorem clearErrors_fbReady (s : State) (v : Word) : (s.clearErrors v).fbReady = s.fbReady := rfl
@[simp] theorem clearErrors_target (s : State) (v : Word) : (s.clearErrors v).target = s.target := rfl
@[simp] theorem clearErrors_hist (s : State) (v : Word) : (s.clearErrors v).hist = s.hist := rfl
@[simp] theorem clearErrors_outMem (s : State) (v : Word) : (s.clearErrors v).outMem = s.outMem := rfl
@[simp] theorem clearErrors_fxpIn (s : State) (v : Word) : (s.clearErrors v).fxpIn = s.fxpIn := rfl
@[simp] theorem clearErrors_result (s : State) (v : Word) : (s.clearErrors v).result = s.result := rfl
@[simp] theorem clearErrors_errors (s : State) (v : Word) : (s.clearErrors v).errors = clearedBy s.errors v := rfl
@[simp] theorem clearErrors_inbox (s : State) (v : Word) : (s.clearErrors v).inbox = s.inbox := rfl
@[simp] theorem clearErrors_readData (s : State) (v : Word) : (s.clearErrors v).readData = s.readData := rfl
@[simp] theorem clearErrors_resets (s : State) (v : Word) : (s.clearErrors v).resets = s.resets := rfl

/-! `State.ret` -/

@[simp] theorem ret_sizes (s : State) (v : Nat) : (s.ret v).sizes = s.sizes := rfl
@[simp] theorem ret_filter (s : State) (v : Nat) : (s.ret v).filter = s.filter := rfl
@[simp] theorem ret_ringReady (s : State) (v : Nat) : (s.ret v).ringReady = s.ringReady := rfl
@[simp] theorem ret_k (s : State) (v : Nat) : (s.ret v).k = s.k := rfl
@[simp] theorem ret_blen (s : State) (v : Nat) : (s.ret v).blen = s.blen := rfl
@[simp] theorem ret_wr (s : State) (v : Nat) : (s.ret v).wr = s.wr := rfl
@[simp] theorem ret_rd (s : State) (v : Nat) : (s.ret v).rd = s.rd := rfl
@[simp] theorem ret_count (s : State) (v : Nat) : (s.ret v).count = s.count := rfl
@[simp] theorem ret_ovr (s : State) (v : Nat) : (s.ret v).ovr = s.ovr := rfl
@[simp] theorem ret_ringMem (s : State) (v : Nat) : (s.ret v).ringMem = s.ringMem := rfl
@[simp] theorem ret_fbReady (s : State) (v : Nat) : (s.ret v).fbReady = s.fbReady := rfl
@[simp] theorem ret_target (s : State) (v : Nat) : (s.ret v).target = s.target := rfl
@[simp] theorem ret_hist (s : State) (v : Nat) : (s.ret v).hist = s.hist := rfl
@[simp] theorem ret_outMem (s : State) (v : Nat) : (s.ret v).outMem = s.outMem := rfl
@[simp] theorem ret_fxpIn (s : State) (v : Nat) : (s.ret v).fxpIn = s.fxpIn := rfl
@[simp] theorem ret_result (s : State) (v : Nat) : (s.ret v).result = BitVec.ofNat 32 v := rfl
@[simp] theorem ret_errors (s : State) (v : Nat) : (s.ret v).errors = s.errors := rfl
@[simp] theorem ret_inbox (s : State) (v : Nat) : (s.ret v).inbox = s.inbox := rfl
@[simp] theorem ret_readData (s : State) (v : Nat) : (s.ret v).readData = s.readData := rfl
@[simp] theorem ret_resets (s : State) (v : Nat) : (s.ret v).resets = s.resets := rfl

/-! `State.raise` -/

@[simp] theorem raise_sizes (s : State) (e : ErrorCause) : (s.raise e).sizes = s.sizes := rfl
@[simp] theorem raise_filter (s : State) (e : ErrorCause) : (s.raise e).filter = s.filter := rfl
@[simp] theorem raise_ringReady (s : State) (e : ErrorCause) : (s.raise e).ringReady = s.ringReady := rfl
@[simp] theorem raise_k (s : State) (e : ErrorCause) : (s.raise e).k = s.k := rfl
@[simp] theorem raise_blen (s : State) (e : ErrorCause) : (s.raise e).blen = s.blen := rfl
@[simp] theorem raise_wr (s : State) (e : ErrorCause) : (s.raise e).wr = s.wr := rfl
@[simp] theorem raise_rd (s : State) (e : ErrorCause) : (s.raise e).rd = s.rd := rfl
@[simp] theorem raise_count (s : State) (e : ErrorCause) : (s.raise e).count = s.count := rfl
@[simp] theorem raise_ovr (s : State) (e : ErrorCause) : (s.raise e).ovr = s.ovr := rfl
@[simp] theorem raise_ringMem (s : State) (e : ErrorCause) : (s.raise e).ringMem = s.ringMem := rfl
@[simp] theorem raise_fbReady (s : State) (e : ErrorCause) : (s.raise e).fbReady = s.fbReady := rfl
@[simp] theorem raise_target (s : State) (e : ErrorCause) : (s.raise e).target = s.target := rfl
@[simp] theorem raise_hist (s : State) (e : ErrorCause) : (s.raise e).hist = s.hist := rfl
@[simp] theorem raise_outMem (s : State) (e : ErrorCause) : (s.raise e).outMem = s.outMem := rfl
@[simp] theorem raise_fxpIn (s : State) (e : ErrorCause) : (s.raise e).fxpIn = s.fxpIn := rfl
@[simp] theorem raise_result (s : State) (e : ErrorCause) : (s.raise e).result = errResult := rfl
@[simp] theorem raise_errors (s : State) (e : ErrorCause) : (s.raise e).errors = withError s.errors e := rfl
@[simp] theorem raise_inbox (s : State) (e : ErrorCause) : (s.raise e).inbox = s.inbox := rfl
@[simp] theorem raise_readData (s : State) (e : ErrorCause) : (s.raise e).readData = s.readData := rfl
@[simp] theorem raise_resets (s : State) (e : ErrorCause) : (s.raise e).resets = s.resets := rfl

/-! `State.afterPush` -/

@[simp] theorem afterPush_sizes (s : State) : (s.afterPush).sizes = s.sizes := rfl
@[simp] theorem afterPush_filter (s : State) : (s.afterPush).filter = s.filter := rfl
@[simp] theorem afterPush_ringReady (s : State) : (s.afterPush).ringReady = s.ringReady := rfl
@[simp] theorem afterPush_k (s : State) : (s.afterPush).k = s.k := rfl
@[simp] theorem afterPush_blen (s : State) : (s.afterPush).blen = s.blen := rfl
@[simp] theorem afterPush_wr (s : State) : (s.afterPush).wr = (s.wr + 1) % s.k := rfl
@[simp] theorem afterPush_rd (s : State) : (s.afterPush).rd = s.rd := rfl
@[simp] theorem afterPush_count (s : State) : (s.afterPush).count = countAfterPush s.sizes s.count := rfl
@[simp] theorem afterPush_ovr (s : State) : (s.afterPush).ovr = overrunCheck s.k (countAfterPush s.sizes s.count) s.ovr := rfl
@[simp] theorem afterPush_ringMem (s : State) : (s.afterPush).ringMem = s.ringMem := rfl
@[simp] theorem afterPush_fbReady (s : State) : (s.afterPush).fbReady = s.fbReady := rfl
@[simp] theorem afterPush_target (s : State) : (s.afterPush).target = s.target := rfl
@[simp] theorem afterPush_hist (s : State) : (s.afterPush).hist = s.hist := rfl
@[simp] theorem afterPush_outMem (s : State) : (s.afterPush).outMem = s.outMem := rfl
@[simp] theorem afterPush_fxpIn (s : State) : (s.afterPush).fxpIn = s.fxpIn := rfl
@[simp] theorem afterPush_result (s : State) : (s.afterPush).result = s.result := rfl
@[simp] theorem afterPush_errors (s : State) : (s.afterPush).errors = s.errors := rfl
@[simp] theorem afterPush_inbox (s : State) : (s.afterPush).inbox = s.inbox := rfl
@[simp] theorem afterPush_readData (s : State) : (s.afterPush).readData = s.readData := rfl
@[simp] theorem afterPush_resets (s : State) : (s.afterPush).resets = s.resets := rfl

/-! `State.runCascade` -/

@[simp] theorem runCascade_sizes (s : State) (r : CascadeRate) (x : List Sample) : (s.runCascade r x).sizes = s.sizes := rfl
@[simp] theorem runCascade_filter (s : State) (r : CascadeRate) (x : List Sample) : (s.runCascade r x).filter = s.filter := rfl
@[simp] theorem runCascade_ringReady (s : State) (r : CascadeRate) (x : List Sample) : (s.runCascade r x).ringReady = s.ringReady := rfl
@[simp] theorem runCascade_k (s : State) (r : CascadeRate) (x : List Sample) : (s.runCascade r x).k = s.k := rfl
@[simp] theorem runCascade_blen (s : State) (r : CascadeRate) (x : List Sample) : (s.runCascade r x).blen = s.blen := rfl
@[simp] theorem runCascade_wr (s : State) (r : CascadeRate) (x : List Sample) : (s.runCascade r x).wr = s.wr := rfl
@[simp] theorem runCascade_rd (s : State) (r : CascadeRate) (x : List Sample) : (s.runCascade r x).rd = s.rd := rfl
@[simp] theorem runCascade_count (s : State) (r : CascadeRate) (x : List Sample) : (s.runCascade r x).count = s.count := rfl
@[simp] theorem runCascade_ovr (s : State) (r : CascadeRate) (x : List Sample) : (s.runCascade r x).ovr = s.ovr := rfl
@[simp] theorem runCascade_ringMem (s : State) (r : CascadeRate) (x : List Sample) : (s.runCascade r x).ringMem = s.ringMem := rfl
@[simp] theorem runCascade_fbReady (s : State) (r : CascadeRate) (x : List Sample) : (s.runCascade r x).fbReady = s.fbReady := rfl
@[simp] theorem runCascade_target (s : State) (r : CascadeRate) (x : List Sample) : (s.runCascade r x).target = s.target := rfl
@[simp] theorem runCascade_hist (s : State) (r : CascadeRate) (x : List Sample) : (s.runCascade r x).hist = bankPut s.hist r (cascadeRun (reduceBy s.filter.reduce) (stagesWith s.filter s.hist r) x).1 := rfl
@[simp] theorem runCascade_outMem (s : State) (r : CascadeRate) (x : List Sample) : (s.runCascade r x).outMem = s.outMem := rfl
@[simp] theorem runCascade_fxpIn (s : State) (r : CascadeRate) (x : List Sample) : (s.runCascade r x).fxpIn = s.fxpIn := rfl
@[simp] theorem runCascade_result (s : State) (r : CascadeRate) (x : List Sample) : (s.runCascade r x).result = s.result := rfl
@[simp] theorem runCascade_errors (s : State) (r : CascadeRate) (x : List Sample) : (s.runCascade r x).errors = s.errors := rfl
@[simp] theorem runCascade_inbox (s : State) (r : CascadeRate) (x : List Sample) : (s.runCascade r x).inbox = s.inbox := rfl
@[simp] theorem runCascade_readData (s : State) (r : CascadeRate) (x : List Sample) : (s.runCascade r x).readData = s.readData := rfl
@[simp] theorem runCascade_resets (s : State) (r : CascadeRate) (x : List Sample) : (s.runCascade r x).resets = s.resets := rfl

/-! `State.withCommand` -/

@[simp] theorem withCommand_sizes (s : State) (c : Word) : (s.withCommand c).sizes = s.sizes := rfl
@[simp] theorem withCommand_filter (s : State) (c : Word) : (s.withCommand c).filter = s.filter := rfl
@[simp] theorem withCommand_ringReady (s : State) (c : Word) : (s.withCommand c).ringReady = s.ringReady := rfl
@[simp] theorem withCommand_k (s : State) (c : Word) : (s.withCommand c).k = s.k := rfl
@[simp] theorem withCommand_blen (s : State) (c : Word) : (s.withCommand c).blen = s.blen := rfl
@[simp] theorem withCommand_wr (s : State) (c : Word) : (s.withCommand c).wr = s.wr := rfl
@[simp] theorem withCommand_rd (s : State) (c : Word) : (s.withCommand c).rd = s.rd := rfl
@[simp] theorem withCommand_count (s : State) (c : Word) : (s.withCommand c).count = s.count := rfl
@[simp] theorem withCommand_ovr (s : State) (c : Word) : (s.withCommand c).ovr = s.ovr := rfl
@[simp] theorem withCommand_ringMem (s : State) (c : Word) : (s.withCommand c).ringMem = s.ringMem := rfl
@[simp] theorem withCommand_fbReady (s : State) (c : Word) : (s.withCommand c).fbReady = s.fbReady := rfl
@[simp] theorem withCommand_target (s : State) (c : Word) : (s.withCommand c).target = s.target := rfl
@[simp] theorem withCommand_hist (s : State) (c : Word) : (s.withCommand c).hist = s.hist := rfl
@[simp] theorem withCommand_outMem (s : State) (c : Word) : (s.withCommand c).outMem = s.outMem := rfl
@[simp] theorem withCommand_fxpIn (s : State) (c : Word) : (s.withCommand c).fxpIn = s.fxpIn := rfl
@[simp] theorem withCommand_result (s : State) (c : Word) : (s.withCommand c).result = s.result := rfl
@[simp] theorem withCommand_errors (s : State) (c : Word) : (s.withCommand c).errors = s.errors := rfl
@[simp] theorem withCommand_inbox (s : State) (c : Word) : (s.withCommand c).inbox = .hostWrite 0x0#32 .word c :: s.inbox := rfl
@[simp] theorem withCommand_readData (s : State) (c : Word) : (s.withCommand c).readData = s.readData := rfl
@[simp] theorem withCommand_resets (s : State) (c : Word) : (s.withCommand c).resets = s.resets := rfl

/-! `State.hardwareReset` -/

@[simp] theorem hardwareReset_sizes (s : State) : (s.hardwareReset).sizes = s.sizes := rfl
@[simp] theorem hardwareReset_filter (s : State) : (s.hardwareReset).filter = s.filter := rfl
@[simp] theorem hardwareReset_ringReady (s : State) : (s.hardwareReset).ringReady = false := rfl
@[simp] theorem hardwareReset_k (s : State) : (s.hardwareReset).k = 0 := rfl
@[simp] theorem hardwareReset_blen (s : State) : (s.hardwareReset).blen = 0 := rfl
@[simp] theorem hardwareReset_wr (s : State) : (s.hardwareReset).wr = 0 := rfl
@[simp] theorem hardwareReset_rd (s : State) : (s.hardwareReset).rd = 0 := rfl
@[simp] theorem hardwareReset_count (s : State) : (s.hardwareReset).count = 0 := rfl
@[simp] theorem hardwareReset_ovr (s : State) : (s.hardwareReset).ovr = false := rfl
@[simp] theorem hardwareReset_ringMem (s : State) : (s.hardwareReset).ringMem = [] := rfl
@[simp] theorem hardwareReset_fbReady (s : State) : (s.hardwareReset).fbReady = false := rfl
@[simp] theorem hardwareReset_target (s : State) : (s.hardwareReset).target = .native := rfl
@[simp] theorem hardwareReset_hist (s : State) : (s.hardwareReset).hist = unwrittenHistories (s.resets + 1) s.filter.coef := rfl
@[simp] theorem hardwareReset_outMem (s : State) : (s.hardwareReset).outMem = [] := rfl
@[simp] theorem hardwareReset_fxpIn (s : State) : (s.hardwareReset).fxpIn = [] := rfl
@[simp] theorem hardwareReset_result (s : State) : (s.hardwareReset).result = 0#32 := rfl
@[simp] theorem hardwareReset_errors (s : State) : (s.hardwareReset).errors = 0#7 := rfl
@[simp] theorem hardwareReset_inbox (s : State) : (s.hardwareReset).inbox = s.inbox := rfl
@[simp] theorem hardwareReset_readData (s : State) : (s.hardwareReset).readData = s.readData := rfl
@[simp] theorem hardwareReset_resets (s : State) : (s.hardwareReset).resets = s.resets + 1 := rfl

/-! `State.store` on RING -/

@[simp] theorem store_ring_sizes (s : State) (base : Nat) (bs : List Byte) : (s.store .ring base bs).sizes = s.sizes := rfl
@[simp] theorem store_ring_filter (s : State) (base : Nat) (bs : List Byte) : (s.store .ring base bs).filter = s.filter := rfl
@[simp] theorem store_ring_ringReady (s : State) (base : Nat) (bs : List Byte) : (s.store .ring base bs).ringReady = s.ringReady := rfl
@[simp] theorem store_ring_k (s : State) (base : Nat) (bs : List Byte) : (s.store .ring base bs).k = s.k := rfl
@[simp] theorem store_ring_blen (s : State) (base : Nat) (bs : List Byte) : (s.store .ring base bs).blen = s.blen := rfl
@[simp] theorem store_ring_wr (s : State) (base : Nat) (bs : List Byte) : (s.store .ring base bs).wr = s.wr := rfl
@[simp] theorem store_ring_rd (s : State) (base : Nat) (bs : List Byte) : (s.store .ring base bs).rd = s.rd := rfl
@[simp] theorem store_ring_count (s : State) (base : Nat) (bs : List Byte) : (s.store .ring base bs).count = s.count := rfl
@[simp] theorem store_ring_ovr (s : State) (base : Nat) (bs : List Byte) : (s.store .ring base bs).ovr = s.ovr := rfl
@[simp] theorem store_ring_ringMem (s : State) (base : Nat) (bs : List Byte) : (s.store .ring base bs).ringMem = s.ringMem.store base bs := rfl
@[simp] theorem store_ring_fbReady (s : State) (base : Nat) (bs : List Byte) : (s.store .ring base bs).fbReady = s.fbReady := rfl
@[simp] theorem store_ring_target (s : State) (base : Nat) (bs : List Byte) : (s.store .ring base bs).target = s.target := rfl
@[simp] theorem store_ring_hist (s : State) (base : Nat) (bs : List Byte) : (s.store .ring base bs).hist = s.hist := rfl
@[simp] theorem store_ring_outMem (s : State) (base : Nat) (bs : List Byte) : (s.store .ring base bs).outMem = s.outMem := rfl
@[simp] theorem store_ring_fxpIn (s : State) (base : Nat) (bs : List Byte) : (s.store .ring base bs).fxpIn = s.fxpIn := rfl
@[simp] theorem store_ring_result (s : State) (base : Nat) (bs : List Byte) : (s.store .ring base bs).result = s.result := rfl
@[simp] theorem store_ring_errors (s : State) (base : Nat) (bs : List Byte) : (s.store .ring base bs).errors = s.errors := rfl
@[simp] theorem store_ring_inbox (s : State) (base : Nat) (bs : List Byte) : (s.store .ring base bs).inbox = s.inbox := rfl
@[simp] theorem store_ring_readData (s : State) (base : Nat) (bs : List Byte) : (s.store .ring base bs).readData = s.readData := rfl
@[simp] theorem store_ring_resets (s : State) (base : Nat) (bs : List Byte) : (s.store .ring base bs).resets = s.resets := rfl

/-! `State.store` on OUT -/

@[simp] theorem store_out_sizes (s : State) (base : Nat) (bs : List Byte) : (s.store .out base bs).sizes = s.sizes := rfl
@[simp] theorem store_out_filter (s : State) (base : Nat) (bs : List Byte) : (s.store .out base bs).filter = s.filter := rfl
@[simp] theorem store_out_ringReady (s : State) (base : Nat) (bs : List Byte) : (s.store .out base bs).ringReady = s.ringReady := rfl
@[simp] theorem store_out_k (s : State) (base : Nat) (bs : List Byte) : (s.store .out base bs).k = s.k := rfl
@[simp] theorem store_out_blen (s : State) (base : Nat) (bs : List Byte) : (s.store .out base bs).blen = s.blen := rfl
@[simp] theorem store_out_wr (s : State) (base : Nat) (bs : List Byte) : (s.store .out base bs).wr = s.wr := rfl
@[simp] theorem store_out_rd (s : State) (base : Nat) (bs : List Byte) : (s.store .out base bs).rd = s.rd := rfl
@[simp] theorem store_out_count (s : State) (base : Nat) (bs : List Byte) : (s.store .out base bs).count = s.count := rfl
@[simp] theorem store_out_ovr (s : State) (base : Nat) (bs : List Byte) : (s.store .out base bs).ovr = s.ovr := rfl
@[simp] theorem store_out_ringMem (s : State) (base : Nat) (bs : List Byte) : (s.store .out base bs).ringMem = s.ringMem := rfl
@[simp] theorem store_out_fbReady (s : State) (base : Nat) (bs : List Byte) : (s.store .out base bs).fbReady = s.fbReady := rfl
@[simp] theorem store_out_target (s : State) (base : Nat) (bs : List Byte) : (s.store .out base bs).target = s.target := rfl
@[simp] theorem store_out_hist (s : State) (base : Nat) (bs : List Byte) : (s.store .out base bs).hist = s.hist := rfl
@[simp] theorem store_out_outMem (s : State) (base : Nat) (bs : List Byte) : (s.store .out base bs).outMem = s.outMem.store base bs := rfl
@[simp] theorem store_out_fxpIn (s : State) (base : Nat) (bs : List Byte) : (s.store .out base bs).fxpIn = s.fxpIn := rfl
@[simp] theorem store_out_result (s : State) (base : Nat) (bs : List Byte) : (s.store .out base bs).result = s.result := rfl
@[simp] theorem store_out_errors (s : State) (base : Nat) (bs : List Byte) : (s.store .out base bs).errors = s.errors := rfl
@[simp] theorem store_out_inbox (s : State) (base : Nat) (bs : List Byte) : (s.store .out base bs).inbox = s.inbox := rfl
@[simp] theorem store_out_readData (s : State) (base : Nat) (bs : List Byte) : (s.store .out base bs).readData = s.readData := rfl
@[simp] theorem store_out_resets (s : State) (base : Nat) (bs : List Byte) : (s.store .out base bs).resets = s.resets := rfl

/-! `State.store` on FXP -/

@[simp] theorem store_fxp_sizes (s : State) (base : Nat) (bs : List Byte) : (s.store .fxp base bs).sizes = s.sizes := rfl
@[simp] theorem store_fxp_filter (s : State) (base : Nat) (bs : List Byte) : (s.store .fxp base bs).filter = s.filter := rfl
@[simp] theorem store_fxp_ringReady (s : State) (base : Nat) (bs : List Byte) : (s.store .fxp base bs).ringReady = s.ringReady := rfl
@[simp] theorem store_fxp_k (s : State) (base : Nat) (bs : List Byte) : (s.store .fxp base bs).k = s.k := rfl
@[simp] theorem store_fxp_blen (s : State) (base : Nat) (bs : List Byte) : (s.store .fxp base bs).blen = s.blen := rfl
@[simp] theorem store_fxp_wr (s : State) (base : Nat) (bs : List Byte) : (s.store .fxp base bs).wr = s.wr := rfl
@[simp] theorem store_fxp_rd (s : State) (base : Nat) (bs : List Byte) : (s.store .fxp base bs).rd = s.rd := rfl
@[simp] theorem store_fxp_count (s : State) (base : Nat) (bs : List Byte) : (s.store .fxp base bs).count = s.count := rfl
@[simp] theorem store_fxp_ovr (s : State) (base : Nat) (bs : List Byte) : (s.store .fxp base bs).ovr = s.ovr := rfl
@[simp] theorem store_fxp_ringMem (s : State) (base : Nat) (bs : List Byte) : (s.store .fxp base bs).ringMem = s.ringMem := rfl
@[simp] theorem store_fxp_fbReady (s : State) (base : Nat) (bs : List Byte) : (s.store .fxp base bs).fbReady = s.fbReady := rfl
@[simp] theorem store_fxp_target (s : State) (base : Nat) (bs : List Byte) : (s.store .fxp base bs).target = s.target := rfl
@[simp] theorem store_fxp_hist (s : State) (base : Nat) (bs : List Byte) : (s.store .fxp base bs).hist = s.hist := rfl
@[simp] theorem store_fxp_outMem (s : State) (base : Nat) (bs : List Byte) : (s.store .fxp base bs).outMem = s.outMem := rfl
@[simp] theorem store_fxp_fxpIn (s : State) (base : Nat) (bs : List Byte) : (s.store .fxp base bs).fxpIn = s.fxpIn.store base bs := rfl
@[simp] theorem store_fxp_result (s : State) (base : Nat) (bs : List Byte) : (s.store .fxp base bs).result = s.result := rfl
@[simp] theorem store_fxp_errors (s : State) (base : Nat) (bs : List Byte) : (s.store .fxp base bs).errors = s.errors := rfl
@[simp] theorem store_fxp_inbox (s : State) (base : Nat) (bs : List Byte) : (s.store .fxp base bs).inbox = s.inbox := rfl
@[simp] theorem store_fxp_readData (s : State) (base : Nat) (bs : List Byte) : (s.store .fxp base bs).readData = s.readData := rfl
@[simp] theorem store_fxp_resets (s : State) (base : Nat) (bs : List Byte) : (s.store .fxp base bs).resets = s.resets := rfl

/-! `State.store` on any space -/

@[simp] theorem store_sizes (s : State) (sp : Space) (base : Nat) (bs : List Byte) : (s.store sp base bs).sizes = s.sizes := by cases sp <;> rfl
@[simp] theorem store_filter (s : State) (sp : Space) (base : Nat) (bs : List Byte) : (s.store sp base bs).filter = s.filter := by cases sp <;> rfl
@[simp] theorem store_ringReady (s : State) (sp : Space) (base : Nat) (bs : List Byte) : (s.store sp base bs).ringReady = s.ringReady := by cases sp <;> rfl
@[simp] theorem store_k (s : State) (sp : Space) (base : Nat) (bs : List Byte) : (s.store sp base bs).k = s.k := by cases sp <;> rfl
@[simp] theorem store_blen (s : State) (sp : Space) (base : Nat) (bs : List Byte) : (s.store sp base bs).blen = s.blen := by cases sp <;> rfl
@[simp] theorem store_wr (s : State) (sp : Space) (base : Nat) (bs : List Byte) : (s.store sp base bs).wr = s.wr := by cases sp <;> rfl
@[simp] theorem store_rd (s : State) (sp : Space) (base : Nat) (bs : List Byte) : (s.store sp base bs).rd = s.rd := by cases sp <;> rfl
@[simp] theorem store_count (s : State) (sp : Space) (base : Nat) (bs : List Byte) : (s.store sp base bs).count = s.count := by cases sp <;> rfl
@[simp] theorem store_ovr (s : State) (sp : Space) (base : Nat) (bs : List Byte) : (s.store sp base bs).ovr = s.ovr := by cases sp <;> rfl
@[simp] theorem store_fbReady (s : State) (sp : Space) (base : Nat) (bs : List Byte) : (s.store sp base bs).fbReady = s.fbReady := by cases sp <;> rfl
@[simp] theorem store_target (s : State) (sp : Space) (base : Nat) (bs : List Byte) : (s.store sp base bs).target = s.target := by cases sp <;> rfl
@[simp] theorem store_hist (s : State) (sp : Space) (base : Nat) (bs : List Byte) : (s.store sp base bs).hist = s.hist := by cases sp <;> rfl
@[simp] theorem store_result (s : State) (sp : Space) (base : Nat) (bs : List Byte) : (s.store sp base bs).result = s.result := by cases sp <;> rfl
@[simp] theorem store_errors (s : State) (sp : Space) (base : Nat) (bs : List Byte) : (s.store sp base bs).errors = s.errors := by cases sp <;> rfl
@[simp] theorem store_inbox (s : State) (sp : Space) (base : Nat) (bs : List Byte) : (s.store sp base bs).inbox = s.inbox := by cases sp <;> rfl
@[simp] theorem store_readData (s : State) (sp : Space) (base : Nat) (bs : List Byte) : (s.store sp base bs).readData = s.readData := by cases sp <;> rfl
@[simp] theorem store_resets (s : State) (sp : Space) (base : Nat) (bs : List Byte) : (s.store sp base bs).resets = s.resets := by cases sp <;> rfl

/-! `State.memWrite` on any space -/

@[simp] theorem memWrite_sizes (s : State) (sp : Space) (a n v : Nat) : (s.memWrite sp a n v).sizes = s.sizes := by cases sp <;> rfl
@[simp] theorem memWrite_filter (s : State) (sp : Space) (a n v : Nat) : (s.memWrite sp a n v).filter = s.filter := by cases sp <;> rfl
@[simp] theorem memWrite_ringReady (s : State) (sp : Space) (a n v : Nat) : (s.memWrite sp a n v).ringReady = s.ringReady := by cases sp <;> rfl
@[simp] theorem memWrite_k (s : State) (sp : Space) (a n v : Nat) : (s.memWrite sp a n v).k = s.k := by cases sp <;> rfl
@[simp] theorem memWrite_blen (s : State) (sp : Space) (a n v : Nat) : (s.memWrite sp a n v).blen = s.blen := by cases sp <;> rfl
@[simp] theorem memWrite_wr (s : State) (sp : Space) (a n v : Nat) : (s.memWrite sp a n v).wr = s.wr := by cases sp <;> rfl
@[simp] theorem memWrite_rd (s : State) (sp : Space) (a n v : Nat) : (s.memWrite sp a n v).rd = s.rd := by cases sp <;> rfl
@[simp] theorem memWrite_count (s : State) (sp : Space) (a n v : Nat) : (s.memWrite sp a n v).count = s.count := by cases sp <;> rfl
@[simp] theorem memWrite_ovr (s : State) (sp : Space) (a n v : Nat) : (s.memWrite sp a n v).ovr = s.ovr := by cases sp <;> rfl
@[simp] theorem memWrite_fbReady (s : State) (sp : Space) (a n v : Nat) : (s.memWrite sp a n v).fbReady = s.fbReady := by cases sp <;> rfl
@[simp] theorem memWrite_target (s : State) (sp : Space) (a n v : Nat) : (s.memWrite sp a n v).target = s.target := by cases sp <;> rfl
@[simp] theorem memWrite_hist (s : State) (sp : Space) (a n v : Nat) : (s.memWrite sp a n v).hist = s.hist := by cases sp <;> rfl
@[simp] theorem memWrite_result (s : State) (sp : Space) (a n v : Nat) : (s.memWrite sp a n v).result = s.result := by cases sp <;> rfl
@[simp] theorem memWrite_errors (s : State) (sp : Space) (a n v : Nat) : (s.memWrite sp a n v).errors = s.errors := by cases sp <;> rfl
@[simp] theorem memWrite_inbox (s : State) (sp : Space) (a n v : Nat) : (s.memWrite sp a n v).inbox = s.inbox := by cases sp <;> rfl
@[simp] theorem memWrite_readData (s : State) (sp : Space) (a n v : Nat) : (s.memWrite sp a n v).readData = s.readData := by cases sp <;> rfl
@[simp] theorem memWrite_resets (s : State) (sp : Space) (a n v : Nat) : (s.memWrite sp a n v).resets = s.resets := by cases sp <;> rfl

/-! `State.reset` (70_reset_and_hazards.md R230) -/

@[simp] theorem reset_sizes : State.reset.sizes = Config.defaultSizes := rfl
@[simp] theorem reset_filter : State.reset.filter = configFilter := rfl
@[simp] theorem reset_ringReady : State.reset.ringReady = false := rfl
@[simp] theorem reset_k : State.reset.k = 0 := rfl
@[simp] theorem reset_blen : State.reset.blen = 0 := rfl
@[simp] theorem reset_wr : State.reset.wr = 0 := rfl
@[simp] theorem reset_rd : State.reset.rd = 0 := rfl
@[simp] theorem reset_count : State.reset.count = 0 := rfl
@[simp] theorem reset_ovr : State.reset.ovr = false := rfl
@[simp] theorem reset_ringMem : State.reset.ringMem = [] := rfl
@[simp] theorem reset_fbReady : State.reset.fbReady = false := rfl
@[simp] theorem reset_target : State.reset.target = .native := rfl
@[simp] theorem reset_hist : State.reset.hist = unwrittenHistories 0 configFilter.coef := rfl
@[simp] theorem reset_outMem : State.reset.outMem = [] := rfl
@[simp] theorem reset_fxpIn : State.reset.fxpIn = [] := rfl
@[simp] theorem reset_result : State.reset.result = 0#32 := rfl
@[simp] theorem reset_errors : State.reset.errors = 0#7 := rfl
@[simp] theorem reset_inbox : State.reset.inbox = [] := rfl
@[simp] theorem reset_readData : State.reset.readData = 0#32 := rfl
@[simp] theorem reset_resets : State.reset.resets = 0 := rfl

end Sys2Proof.Laws
end

