-- ==== Sys2Proof/Laws/Memory.lean ====
section
/-! SUPPORT. The laws of the byte memories: what a byte reads as after a store, and that a store keeps the canonical form
and the bounds of a space. -/

namespace Sys2Proof.Laws

open Sys2Proof.Machine

theorem lookup_filter (m : Memory) (p : Nat → Bool) (a : Nat) :
    (m.filter (fun x => p x.1)).lookup a = if p a then m.lookup a else none := by
  induction m with
  | nil => simp
  | cons x m ih =>
    obtain ⟨b, v⟩ := x
    by_cases hab : a = b
    · subst hab
      by_cases hp : p a
      · simp [hp]
      · simpa [List.filter_cons, hp] using ih
    · have hne : (a == b) = false := by simpa using hab
      by_cases hp : p b
      · simpa [List.filter_cons, hp, List.lookup_cons, hne] using ih
      · simpa [List.filter_cons, hp, List.lookup_cons, hne] using ih

theorem lookup_cells (bs : List Byte) (base a : Nat) :
    (Memory.cells base bs).lookup a = if base ≤ a then bs[a - base]? else none := by
  induction bs generalizing base with
  | nil => simp [Memory.cells]
  | cons b bs ih =>
    by_cases hab : a = base
    · subst hab
      simp [Memory.cells]
    · have hne : (a == base) = false := by simpa using hab
      by_cases hle : base ≤ a
      · have h1 : a - base = (a - (base + 1)) + 1 := by omega
        simp only [Memory.cells, List.lookup_cons, hne, ih]
        rw [if_pos (by omega), if_pos hle, h1, List.getElem?_cons_succ]
      · simp only [Memory.cells, List.lookup_cons, hne, ih]
        rw [if_neg (by omega), if_neg hle]

/-- Read after write, in one memory (00_scope.md R14): the stored byte inside the stored span, the old one outside. -/
theorem byte?_store (m : Memory) (base : Nat) (bs : List Byte) (a : Nat) :
    (m.store base bs).byte? a =
      if base ≤ a ∧ a < base + bs.length then bs[a - base]? else m.byte? a := by
  have h1 := lookup_filter m (fun y => decide (y < base)) a
  have h2 := lookup_filter m (fun y => decide (base + bs.length ≤ y)) a
  simp only [Memory.byte?, Memory.store, List.lookup_append, lookup_cells, h1, h2]
  by_cases hlt : a < base
  · rw [if_neg (show ¬ base ≤ a by omega), if_neg (show ¬(base ≤ a ∧ a < base + bs.length) by omega)]
    simp [hlt, show ¬ base + bs.length ≤ a by omega]
  · by_cases hin : a < base + bs.length
    · have hb : a - base < bs.length := by omega
      rw [if_pos (show base ≤ a by omega), if_pos (show base ≤ a ∧ a < base + bs.length by omega)]
      simp [hlt, List.getElem?_eq_getElem hb]
    · have hb : bs.length ≤ a - base := by omega
      rw [if_pos (show base ≤ a by omega), if_neg (show ¬(base ≤ a ∧ a < base + bs.length) by omega)]
      simp [hlt, List.getElem?_eq_none hb, show base + bs.length ≤ a by omega]

theorem mem_cells {bs : List Byte} {base : Nat} {x : Host.Cell} (h : x ∈ Memory.cells base bs) :
    base ≤ x.1 ∧ x.1 < base + bs.length := by
  induction bs generalizing base with
  | nil => simp [Memory.cells] at h
  | cons b bs ih =>
    rcases List.mem_cons.1 h with rfl | h
    · simp
    · have := ih h
      simp only [List.length_cons]
      omega

theorem cells_wf (bs : List Byte) (base : Nat) : Memory.wf (Memory.cells base bs) := by
  induction bs generalizing base with
  | nil => simp [Memory.cells]
  | cons b bs ih =>
    refine List.Pairwise.cons (fun x hx => ?_) (ih (base + 1))
    have := mem_cells hx
    simp only
    omega

/-- A store keeps the canonical form. -/
theorem store_wf {m : Memory} (h : m.wf) (base : Nat) (bs : List Byte) : (m.store base bs).wf := by
  refine List.pairwise_append.2 ⟨List.pairwise_append.2 ⟨h.filter _, cells_wf bs base, ?_⟩, h.filter _, ?_⟩
  · intro x hx y hy
    have := mem_cells hy
    have hx := (List.mem_filter.1 hx).2
    simp only [decide_eq_true_eq] at hx
    omega
  · intro x hx y hy
    have hy := (List.mem_filter.1 hy).2
    simp only [decide_eq_true_eq] at hy
    rcases List.mem_append.1 hx with hx | hx
    · have hx := (List.mem_filter.1 hx).2
      simp only [decide_eq_true_eq] at hx
      omega
    · have := mem_cells hx
      omega

/-- A store inside a space keeps every written byte inside it. -/
theorem store_bounded {m : Memory} {bound : Nat} (h : ∀ x ∈ m, x.1 < bound) {base : Nat} {bs : List Byte}
    (hin : base + bs.length ≤ bound) : ∀ x ∈ m.store base bs, x.1 < bound := by
  intro x hx
  rcases List.mem_append.1 hx with hx | hx
  · rcases List.mem_append.1 hx with hx | hx
    · exact h x (List.mem_filter.1 hx).1
    · have := mem_cells hx
      omega
  · exact h x (List.mem_filter.1 hx).1

@[simp] theorem mem_store_same (s : State) (sp : Space) (base : Nat) (bs : List Byte) :
    (s.store sp base bs).mem sp = (s.mem sp).store base bs := by
  cases sp <;> rfl

@[simp] theorem mem_store_other (s : State) {sp sp' : Space} (h : sp' ≠ sp) (base : Nat) (bs : List Byte) :
    (s.store sp base bs).mem sp' = s.mem sp' := by
  cases sp <;> cases sp' <;> first | rfl | exact absurd rfl h

/-- Read after write, in the state (00_scope.md R14): the stored byte inside the stored span of that space, the old one
everywhere else. -/
theorem byteAt_store (s : State) (sp sp' : Space) (base : Nat) (bs : List Byte) (a : Nat) :
    (s.store sp base bs).byteAt sp' a =
      if sp' = sp ∧ base ≤ a ∧ a < base + bs.length then bs.getD (a - base) 0#8 else s.byteAt sp' a := by
  unfold State.byteAt
  by_cases hsp : sp' = sp
  · subst hsp
    rw [mem_store_same, byte?_store]
    by_cases hin : base ≤ a ∧ a < base + bs.length
    · have hb : a - base < bs.length := by omega
      rw [if_pos hin, if_pos ⟨rfl, hin⟩]
      simp [hb]
    · rw [if_neg hin, if_neg (by tauto), store_resets]
  · rw [mem_store_other s hsp, if_neg (by tauto), store_resets]

/-- Two states with the same memory of a space and the same number of resets read the same bytes there. -/
theorem byteAt_congr {s t : State} {sp : Space} (hm : s.mem sp = t.mem sp) (hr : s.resets = t.resets) (a : Nat) :
    s.byteAt sp a = t.byteAt sp a := by
  unfold State.byteAt
  rw [hm, hr]

@[simp] theorem bytesAt_length (s : State) (sp : Space) (a n : Nat) : (s.bytesAt sp a n).length = n := by
  simp [State.bytesAt]

theorem bytesAt_getD (s : State) (sp : Space) {a n i : Nat} (h : i < n) :
    (s.bytesAt sp a n).getD i 0#8 = s.byteAt sp (a + i) := by
  simp [State.bytesAt, h]

/-- Two states that agree on each byte of a span agree on the span. -/
theorem bytesAt_congr {s t : State} {sp : Space} {a n : Nat}
    (h : ∀ i, i < n → t.byteAt sp (a + i) = s.byteAt sp (a + i)) : t.bytesAt sp a n = s.bytesAt sp a n := by
  apply List.map_congr_left
  intro i hi
  exact h i (List.mem_range.1 hi)

@[simp] theorem leBytes_length (n v : Nat) : (leBytes n v).length = n := by
  induction n generalizing v with
  | zero => rfl
  | succ n ih => simp [leBytes, ih]

/-- Byte `i` of the little-endian bytes of `v` holds bits [8i+7:8i] (00_scope.md R14). -/
theorem leBytes_getD {n i : Nat} (h : i < n) (v : Nat) : (leBytes n v).getD i 0#8 = BitVec.ofNat 8 (v / 256 ^ i) := by
  induction n generalizing v i with
  | zero => omega
  | succ n ih =>
    cases i with
    | zero => simp [leBytes]
    | succ i =>
      have := ih (i := i) (by omega) (v / 256)
      simp only [leBytes, List.getD_cons_succ, this, Nat.div_div_eq_div_mul, pow_succ, Nat.mul_comm]

theorem leNat_lt (bs : List Byte) : leNat bs < 256 ^ bs.length := by
  induction bs with
  | nil => simp [leNat]
  | cons b bs ih =>
    have := b.isLt
    simp only [leNat, List.length_cons, pow_succ]
    omega

/-- Writing a number's bytes and combining them gives the number back, modulo the width. -/
theorem leNat_leBytes (n v : Nat) : leNat (leBytes n v) = v % 256 ^ n := by
  induction n generalizing v with
  | zero => simp [leBytes, leNat, Nat.mod_one]
  | succ n ih =>
    have h : v % 256 ^ (n + 1) = v % 256 + 256 * (v / 256 % 256 ^ n) := by
      rw [pow_succ', Nat.mod_mul]
    simp only [leBytes, leNat, ih, BitVec.toNat_ofNat, h, Nat.reducePow]

/-- Combining bytes and writing the number gives the bytes back. -/
theorem leBytes_leNat (bs : List Byte) : leBytes bs.length (leNat bs) = bs := by
  induction bs with
  | nil => rfl
  | cons b bs ih =>
    have hb := b.isLt
    have h1 : (b.toNat + 256 * leNat bs) / 256 = leNat bs := by omega
    have h2 : BitVec.ofNat 8 (b.toNat + 256 * leNat bs) = b := by
      apply BitVec.eq_of_toNat_eq
      simp only [BitVec.toNat_ofNat]
      omega
    simp only [List.length_cons, leNat, leBytes, h1, h2, ih]

/-- A word written to a space reads back (20_memory.md R65). -/
theorem memRead_memWrite (s : State) (sp : Space) (a n v : Nat) :
    (s.memWrite sp a n v).memRead sp a n = v % 256 ^ n := by
  have h : (s.memWrite sp a n v).bytesAt sp a n = leBytes n v := by
    apply List.ext_getElem
    · simp
    · intro i h1 h2
      simp only [bytesAt_length] at h1
      have e1 := bytesAt_getD (s.memWrite sp a n v) sp (a := a) h1
      rw [State.memWrite, byteAt_store, if_pos ⟨rfl, by omega, by rw [leBytes_length]; omega⟩] at e1
      rw [List.getD_eq_getElem _ _ (by simpa using h1)] at e1
      rw [show a + i - a = i by omega, List.getD_eq_getElem _ _ (by simpa using h1)] at e1
      exact e1
  rw [State.memRead, h, leNat_leBytes]

@[simp] theorem swapSamples_length {raw : List Byte} (h : raw.length % 3 = 0) :
    (swapSamples raw).length = raw.length := by
  match raw, h with
  | [], _ => rfl
  | [_], h => simp at h
  | [_, _], h => simp at h
  | b0 :: b1 :: b2 :: rest, h =>
    have : rest.length % 3 = 0 := by
      simp only [List.length_cons] at h
      omega
    simp [swapSamples, swapSamples_length this]

/-- Endianness correction (40_ring.md R114): byte `3j + c` of the corrected block is byte `3j + (2 - c)` of the block in
wire order. -/
theorem swapSamples_getD {raw : List Byte} {j c : Nat} (hc : c < 3) (h : 3 * j + 3 ≤ raw.length) :
    (swapSamples raw).getD (3 * j + c) 0#8 = raw.getD (3 * j + (2 - c)) 0#8 := by
  match raw, h with
  | [], h => simp at h
  | [_], h => simp at h
  | [_, _], h => simp only [List.length_cons, List.length_nil] at h; omega
  | b0 :: b1 :: b2 :: rest, h =>
    cases j with
    | zero =>
      have : c = 0 ∨ c = 1 ∨ c = 2 := by omega
      rcases this with rfl | rfl | rfl <;> simp [swapSamples]
    | succ j =>
      have hr : 3 * j + 3 ≤ rest.length := by
        simp only [List.length_cons] at h
        omega
      have ih := swapSamples_getD (raw := rest) (j := j) hc hr
      rw [show 3 * (j + 1) + c = (3 * j + c) + 1 + 1 + 1 by omega,
        show 3 * (j + 1) + (2 - c) = (3 * j + (2 - c)) + 1 + 1 + 1 by omega]
      simpa [swapSamples] using ih

end Sys2Proof.Laws
end

