-- ==== Sys2Proof/Laws/Filter.lean ====
section
/-! SUPPORT. The laws of the per-stage tables, of one stage run and of a cascade run: lengths, shapes and frames. -/

namespace Sys2Proof.Laws

open Sys2Proof.Machine Sys2Proof.Safety

variable {reduce : Int → Sample}

@[simp] theorem bankGet_length {α : Type} (b : Bank α) (r : CascadeRate) : (bankGet b r).length = stageCount r := by
  cases r <;> simp [bankGet, stageCount, Stages.size]

theorem bankGet_bankMap {α β : Type} (f : CascadeRate → Nat → α → β) (b : Bank α) (r : CascadeRate) :
    bankGet (bankMap f b) r = (bankGet b r).mapIdx (f r) := by
  cases r <;> rfl

theorem stagesPut_list {α : Type} {n : Nat} (v : Stages n α) {l : List α} (h : l.length = n) :
    (stagesPut v l).list = l := by
  simp [stagesPut, h]

/-- The entries put for a cascade are the ones read back. -/
theorem bankGet_bankPut_same {α : Type} (b : Bank α) (r : CascadeRate) {l : List α} (h : l.length = stageCount r) :
    bankGet (bankPut b r l) r = l := by
  cases r <;> exact stagesPut_list _ h

/-- Putting one cascade's entries leaves every other cascade's alone (41_filter_bank.md R154). -/
theorem bankGet_bankPut_other {α : Type} (b : Bank α) {r r' : CascadeRate} (h : r' ≠ r) (l : List α) :
    bankGet (bankPut b r l) r' = bankGet b r' := by
  cases r <;> cases r' <;> first | rfl | exact absurd rfl h

theorem stages_ext {α : Type} {n : Nat} {v w : Stages n α} (h : v.list = w.list) : v = w := by
  cases v
  cases w
  simp_all

/-- Two banks with the same entries for every cascade are equal. -/
theorem bank_ext {α : Type} {a b : Bank α} (h : ∀ r, bankGet a r = bankGet b r) : a = b := by
  cases a
  cases b
  simp only [Bank.mk.injEq]
  exact ⟨stages_ext (h .div2), stages_ext (h .div4), stages_ext (h .div8), stages_ext (h .div12),
    stages_ext (h .div16), stages_ext (h .div24)⟩

theorem bankGet_zeroHistories (coef : Bank Taps) (r : CascadeRate) :
    bankGet (zeroHistories coef) r = (bankGet coef r).map (fun h => List.replicate h.rest.length 0#32) := by
  rw [zeroHistories, bankGet_bankMap]
  apply List.ext_getElem
  · simp
  · intro i h1 h2
    simp

theorem zeroHistories_fit (coef : Bank Taps) : HistoriesFit coef (zeroHistories coef) := by
  intro r
  rw [bankGet_zeroHistories, List.map_map]
  congr 1
  funext h
  simp

theorem unwrittenHistories_fit (n : Nat) (coef : Bank Taps) : HistoriesFit coef (unwrittenHistories n coef) := by
  intro r
  rw [unwrittenHistories, bankGet_bankMap]
  apply List.ext_getElem
  · simp
  · intro i h1 h2
    simp

/-- Two states that agree on the bytes of a block give the same widened samples. -/
theorem rawSamples_congr {s t : State} {base n : Nat}
    (h : ∀ i, i < 3 * n → t.byteAt .ring (base + i) = s.byteAt .ring (base + i)) :
    t.rawSamples base n = s.rawSamples base n := by
  apply List.map_congr_left
  intro i hi
  rw [List.mem_range] at hi
  rw [State.memRead, State.memRead, bytesAt_congr (s := s)]
  intro j hj
  have := h (3 * i + j) (by omega)
  rwa [← Nat.add_assoc] at this

@[simp] theorem lastN_length {α : Type} (n : Nat) (l : List α) : (lastN n l).length = min n l.length := by
  simp only [lastN, List.length_drop]
  omega

/-- A stage produces one output for each whole group of its inputs (41_filter_bank.md R148). -/
@[simp] theorem stageOutput_length (st : Stage) (x : List Sample) :
    (stageOutput reduce st x).length = x.length / factorValue st.factor := by
  simp [stageOutput]

theorem stageHistory_length {st : Stage} (h : st.history.length = st.taps.rest.length) (x : List Sample) :
    (stageHistory st x).length = st.taps.rest.length := by
  simp only [stageHistory, lastN_length, List.length_append]
  omega

@[simp] theorem cascadeRun_histories_length (l : List Stage) (x : List Sample) :
    (cascadeRun reduce l x).1.length = l.length := by
  induction l generalizing x with
  | nil => rfl
  | cons st l ih => simp [cascadeRun, ih]

/-- A cascade run leaves each stage a history of its length (41_filter_bank.md R146). -/
theorem cascadeRun_histories_fit {l : List Stage} (h : ∀ st ∈ l, st.history.length = st.taps.rest.length)
    (x : List Sample) :
    (cascadeRun reduce l x).1.map List.length = l.map (fun st => st.taps.rest.length) := by
  induction l generalizing x with
  | nil => rfl
  | cons st l ih =>
    simp only [cascadeRun, List.map_cons]
    rw [ih (fun st' h' => h st' (List.mem_cons_of_mem _ h')), stageHistory_length (h st List.mem_cons_self)]

/-- What a cascade run is (41_filter_bank.md R152): sequences `v 0, v 1, …`, the first the input and the last the output, each
the output of its stage on the one before, whose history the run leaves at the stage's place. -/
theorem cascadeRun_stages (l : List Stage) (x : List Sample) :
    ∃ v : Nat → List Sample, v 0 = x ∧ (cascadeRun reduce l x).2 = v l.length ∧
      ∀ n st, l[n]? = some st → v (n + 1) = stageOutput reduce st (v n) ∧
        (cascadeRun reduce l x).1[n]? = some (stageHistory st (v n)) := by
  induction l generalizing x with
  | nil => exact ⟨fun _ => x, rfl, rfl, by simp⟩
  | cons s l ih =>
    obtain ⟨v, h0, h1, h2⟩ := ih (stageOutput reduce s x)
    refine ⟨fun n => match n with | 0 => x | n + 1 => v n, rfl, h1, fun n st hn => ?_⟩
    cases n with
    | zero =>
      have hs : s = st := by simpa using hn
      subst hs
      exact ⟨h0, rfl⟩
    | succ n => simpa [cascadeRun] using h2 n st (by simpa using hn)

/-- The dot product as a sum over the taps (41_filter_bank.md R147). -/
theorem firDot_eq_sum (h : Taps) (e : List Sample) (p : Nat) :
    firDot h e p = ∑ j ∈ Finset.range (tapsLength h),
      ((tapsList h).getD j 0#32).toInt * (e.getD (p - j) 0#32).toInt := by
  have sum_range : ∀ (n : Nat) (f : Nat → Int), ((List.range n).map f).sum = ∑ j ∈ Finset.range n, f j := by
    intro n f
    induction n with
    | zero => rfl
    | succ n ih => simp [List.range_succ, Finset.sum_range_succ, ih]
  exact sum_range _ _

@[simp] theorem reduceBy_standard : reduceBy .standard = firReduce := rfl

theorem factorValue_pos (m : Factor) : 0 < factorValue m := by
  cases m <;> decide

/-- A cascade given `n` samples returns `floor(n / product of its factors)` samples (41_filter_bank.md R153). -/
theorem cascadeRun_output_length (l : List Stage) (x : List Sample) :
    (cascadeRun reduce l x).2.length = x.length / (l.map (fun st => factorValue st.factor)).prod := by
  induction l generalizing x with
  | nil => simp [cascadeRun]
  | cons st l ih => simp [cascadeRun, ih, Nat.div_div_eq_div_mul]

@[simp] theorem cascadeFactors_length (p : FilterParams) (r : CascadeRate) :
    (cascadeFactors p r).length = stageCount r := by
  cases r <;> simp [cascadeFactors, stageCount]

/-- Each cascade's factors multiply to D(r) (41_filter_bank.md R155), wherever its 3:1 stage stands. -/
theorem cascadeFactors_prod (p : FilterParams) (r : CascadeRate) :
    ((cascadeFactors p r).map factorValue).prod = divisor r := by
  obtain ⟨c, a, b⟩ := p
  cases r with
  | div12 => fin_cases a <;> rfl
  | div24 => fin_cases b <;> rfl
  | div2 => rfl
  | div4 => rfl
  | div8 => rfl
  | div16 => rfl

theorem zipStages_factors {ms : List Factor} {hs : List Taps} {es : List (List Sample)}
    (h1 : hs.length = ms.length) (h2 : es.length = ms.length) :
    (zipStages ms hs es).map Stage.factor = ms := by
  induction ms generalizing hs es with
  | nil => simp [zipStages]
  | cons m ms ih =>
    cases hs with
    | nil => simp at h1
    | cons h hs =>
      cases es with
      | nil => simp at h2
      | cons e es =>
        simp only [List.length_cons, Nat.add_right_cancel_iff] at h1 h2
        simp [zipStages, ih h1 h2]

theorem zipStages_taps {ms : List Factor} {hs : List Taps} {es : List (List Sample)}
    (h1 : hs.length = ms.length) (h2 : es.length = ms.length) :
    (zipStages ms hs es).map Stage.taps = hs := by
  induction ms generalizing hs es with
  | nil =>
    simp only [List.length_nil, List.length_eq_zero_iff] at h1
    simp [zipStages, h1]
  | cons m ms ih =>
    cases hs with
    | nil => simp at h1
    | cons h hs =>
      cases es with
      | nil => simp at h2
      | cons e es =>
        simp only [List.length_cons, Nat.add_right_cancel_iff] at h1 h2
        simp [zipStages, ih h1 h2]

theorem zipStages_histories {ms : List Factor} {hs : List Taps} {es : List (List Sample)}
    (h1 : hs.length = ms.length) (h2 : es.length = ms.length) :
    (zipStages ms hs es).map Stage.history = es := by
  induction ms generalizing hs es with
  | nil =>
    simp only [List.length_nil, List.length_eq_zero_iff] at h2
    simp [zipStages, h2]
  | cons m ms ih =>
    cases hs with
    | nil => simp at h1
    | cons h hs =>
      cases es with
      | nil => simp at h2
      | cons e es =>
        simp only [List.length_cons, Nat.add_right_cancel_iff] at h1 h2
        simp [zipStages, ih h1 h2]

@[simp] theorem stagesWith_length (p : FilterParams) (hist : Bank (List Sample)) (r : CascadeRate) :
    (stagesWith p hist r).length = stageCount r := by
  have h := congrArg List.length
    (zipStages_factors (ms := cascadeFactors p r) (hs := bankGet p.coef r) (es := bankGet hist r) (by simp) (by simp))
  simpa [stagesWith] using h

@[simp] theorem stagesWith_taps (p : FilterParams) (hist : Bank (List Sample)) (r : CascadeRate) :
    (stagesWith p hist r).map Stage.taps = bankGet p.coef r :=
  zipStages_taps (by simp) (by simp)

@[simp] theorem stagesWith_factors (p : FilterParams) (hist : Bank (List Sample)) (r : CascadeRate) :
    (stagesWith p hist r).map Stage.factor = cascadeFactors p r :=
  zipStages_factors (by simp) (by simp)

@[simp] theorem stagesWith_histories (p : FilterParams) (hist : Bank (List Sample)) (r : CascadeRate) :
    (stagesWith p hist r).map Stage.history = bankGet hist r :=
  zipStages_histories (by simp) (by simp)

/-- Where the histories fit, each stage of a cascade has a history of its length. -/
theorem stagesWith_fit {p : FilterParams} {hist : Bank (List Sample)} (h : HistoriesFit p.coef hist) (r : CascadeRate) :
    ∀ st ∈ stagesWith p hist r, st.history.length = st.taps.rest.length := by
  have h1 : (stagesWith p hist r).map (fun st => st.history.length) =
      (stagesWith p hist r).map (fun st => st.taps.rest.length) := by
    have e1 := congrArg (List.map List.length) (stagesWith_histories p hist r)
    have e2 := congrArg (List.map (fun h : Taps => h.rest.length)) (stagesWith_taps p hist r)
    rw [List.map_map] at e1 e2
    have := h r
    rw [← e1, ← e2] at this
    exact this
  exact List.map_inj_left.1 h1

/-- The output length of a cascade (41_filter_bank.md R153). -/
theorem cascade_output_length (p : FilterParams) (hist : Bank (List Sample)) (r : CascadeRate) (x : List Sample) :
    (cascadeRun reduce (stagesWith p hist r) x).2.length = x.length / divisor r := by
  rw [cascadeRun_output_length, ← cascadeFactors_prod p r, ← stagesWith_factors p hist r, List.map_map]
  rfl

/-- Running a cascade keeps every history at its length. -/
theorem runCascade_fit {p : FilterParams} {hist : Bank (List Sample)} (h : HistoriesFit p.coef hist) (r : CascadeRate)
    (x : List Sample) :
    HistoriesFit p.coef (bankPut hist r (cascadeRun reduce (stagesWith p hist r) x).1) := by
  intro r'
  by_cases hr : r' = r
  · subst hr
    rw [bankGet_bankPut_same _ _ (by simp), cascadeRun_histories_fit (stagesWith_fit h r')]
    have := congrArg (List.map (fun h : Taps => h.rest.length)) (stagesWith_taps p hist r')
    rw [List.map_map] at this
    exact this
  · rw [bankGet_bankPut_other _ hr]
    exact h r'

end Sys2Proof.Laws
end

