-- ==== Sys2Proof/Laws/Format.lean ====
section
/-! SUPPORT. The laws of the sample conversions and of packing (42_format.md R181 to R187). -/

namespace Sys2Proof.Laws

open Sys2Proof.Machine

@[simp] theorem packSample_length (d : OutDepth) (w : Sample) : (packSample d w).length = d.bytes := by
  cases d <;> simp [packSample, OutDepth.bytes]

theorem outDepth_bytes_pos (d : OutDepth) : 0 < d.bytes := by
  cases d <;> decide

theorem outDepth_bytes_le (d : OutDepth) : d.bytes ≤ 3 := by
  cases d <;> decide

/-- `pack` writes `len(x) * bps` bytes (42_format.md R184). -/
@[simp] theorem packBytes_length (d : OutDepth) (x : List Sample) : (packBytes d x).length = x.length * d.bytes := by
  induction x with
  | nil => simp [packBytes]
  | cons w x ih =>
    have : packBytes d (w :: x) = packSample d w ++ packBytes d x := by simp [packBytes]
    rw [this, List.length_append, ih, packSample_length, List.length_cons]
    ring

/-- Sample `i` is packed at offset `i * bps` (42_format.md R184). -/
theorem packBytes_getD (d : OutDepth) {x : List Sample} {i c : Nat} (hi : i < x.length) (hc : c < d.bytes) :
    (packBytes d x).getD (i * d.bytes + c) 0#8 = (packSample d (x.getD i 0#32)).getD c 0#8 := by
  induction x generalizing i with
  | nil => simp at hi
  | cons w x ih =>
    have hp : packBytes d (w :: x) = packSample d w ++ packBytes d x := by simp [packBytes]
    rw [hp]
    cases i with
    | zero =>
      rw [Nat.zero_mul, Nat.zero_add, List.getD_append _ _ _ _ (by simpa using hc)]
      rfl
    | succ i =>
      have hi' : i < x.length := by simpa using hi
      rw [List.getD_append_right _ _ _ _ (by rw [packSample_length]; nlinarith [outDepth_bytes_pos d]),
        packSample_length, List.getD_cons_succ, ← ih hi']
      congr 1
      have : (i + 1) * d.bytes = i * d.bytes + d.bytes := by ring
      omega

/-- Byte `c` of a packed sample is one byte of the 32-bit word: bytes 2 and 3 at depth 16 (42_format.md R182), bytes 1, 2
and 3 at depth 24 (R183). -/
theorem packSample_getD (d : OutDepth) (w : Sample) {c : Nat} (hc : c < d.bytes) :
    (packSample d w).getD c 0#8 = BitVec.ofNat 8 (w.toNat / 256 ^ (4 - d.bytes + c)) := by
  have hw := w.isLt
  cases d with
  | d16 =>
    have h16 : (trunc16 w).toNat = w.toNat / 65536 := by
      simp only [trunc16]
      have : (w.sshiftRight 16).setWidth 16 = (w >>> 16).setWidth 16 := by
        ext i hi
        have h1 : 16 + i < 32 := by omega
        simp [← BitVec.getLsbD_eq_getElem, BitVec.getLsbD_sshiftRight, h1, show ¬ 32 ≤ i by omega]
      rw [this]
      simp only [BitVec.toNat_setWidth, BitVec.toNat_ushiftRight, Nat.shiftRight_eq_div_pow]
      omega
    simp only [OutDepth.bytes] at hc ⊢
    rw [packSample, leBytes_getD hc, h16]
    rw [show 4 - 2 + c = 2 + c by omega, pow_add, show (65536 : Nat) = 256 ^ 2 by decide, ← Nat.div_div_eq_div_mul]
  | d24 =>
    have h24 : (trunc24 w).toNat = w.toNat / 256 := by
      simp only [trunc24]
      have : (w.sshiftRight 8).setWidth 24 = (w >>> 8).setWidth 24 := by
        ext i hi
        have h1 : 8 + i < 32 := by omega
        simp [← BitVec.getLsbD_eq_getElem, BitVec.getLsbD_sshiftRight, h1, show ¬ 32 ≤ i by omega]
      rw [this]
      simp only [BitVec.toNat_setWidth, BitVec.toNat_ushiftRight, Nat.shiftRight_eq_div_pow]
      omega
    simp only [OutDepth.bytes] at hc ⊢
    rw [packSample, leBytes_getD hc, h24]
    rw [show 4 - 3 + c = 1 + c by omega, pow_add, ← Nat.div_div_eq_div_mul, pow_one]

/-- Widening puts the 24 bits of a raw sample in bits 31:8 (42_format.md R181). -/
theorem widen24_toNat (u : RawSample) : (widen24 u).toNat = u.toNat * 256 := by
  have h : widen24 u = u ++ 0#8 := by
    ext i hi
    have ha := BitVec.getElem_append (x := u) (y := 0#8) (i := i) hi
    rw [ha]
    by_cases h8 : i < 8
    · simp [widen24, h8]
    · simp [widen24, h8, BitVec.getElem_signExtend, show i - 8 < 24 by omega]
  have ha := BitVec.toNat_append u 0#8
  rw [h, ha, ← Nat.shiftLeft_add_eq_or_of_lt (by decide), Nat.shiftLeft_eq]
  simp

end Sys2Proof.Laws
end

