-- ==== Sys2Proof/Laws/Ops.lean ====
section
/-! SUPPORT. What each shared operation, command and transaction can do: if it answers a next state, one of the listed
cases holds. -/

namespace Sys2Proof.Laws

open Sys2Proof.Machine Sys2Proof.Safety

/-! Each arm of `exec` is its command's meaning. -/

@[simp] theorem exec_nop (s : State) : exec .nop s = execNop s := rfl
@[simp] theorem exec_ringInit (cap : Nat) (blen : Nat) (s : State) : exec (.ringInit cap blen) s = execRingInit cap blen s := rfl
@[simp] theorem exec_ringAvailable (s : State) : exec .ringAvailable s = execRingAvailable s := rfl
@[simp] theorem exec_ringConsume (s : State) : exec .ringConsume s = execRingConsume s := rfl
@[simp] theorem exec_ringOvrRead (s : State) : exec .ringOvrRead s = execRingOvrRead s := rfl
@[simp] theorem exec_ringOvrClear (s : State) : exec .ringOvrClear s = execRingOvrClear s := rfl
@[simp] theorem exec_fbInit (s : State) : exec .fbInit s = execFbInit s := rfl
@[simp] theorem exec_fbSetTarget (rate : RateCode) (s : State) : exec (.fbSetTarget rate) s = execFbSetTarget rate s := rfl
@[simp] theorem exec_fbDownsample (slot : Nat) (depth : Nat) (rawlen : Nat) (s : State) : exec (.fbDownsample slot depth rawlen) s = execFbDownsample slot depth rawlen s := rfl
@[simp] theorem exec_fmtConvert (depth : Nat) (count : Nat) (s : State) : exec (.fmtConvert depth count) s = execFmtConvert depth count s := rfl

/-- Writing output: the bytes fit OUT, they are stored from offset 0, and RESULT is their number (42_format.md R184). -/
theorem output_next {s t : State} {bytes : List Byte} (h : s.output bytes = .next t) :
    bytes.length ≤ 3 * s.sizes.nMax ∧ t = (s.store .out 0 bytes).ret bytes.length := by
  unfold State.output at h
  split at h
  · rename_i hin
    injection h with h
    refine ⟨?_, h.symm⟩
    simpa [State.inSpace, spaceSize] using hin
  · cases h

/-- Output that fits OUT is written. -/
theorem output_eq {s : State} {bytes : List Byte} (h : bytes.length ≤ 3 * s.sizes.nMax) :
    s.output bytes = .next ((s.store .out 0 bytes).ret bytes.length) := by
  unfold State.output
  rw [if_pos (by simpa [State.inSpace, spaceSize] using h)]

/-- RING_INIT (40_ring.md R112). -/
theorem execRingInit_next {cap blen : Nat} {s t : State} (h : execRingInit cap blen s = .next t) :
    t = s.raise .arg ∨
    (capacityOk s.sizes cap = true ∧ blockLengthOk s.sizes blen = true ∧
      t = State.ret
        { s with k := cap, blen := blen, wr := 0, rd := 0, count := 0, ovr := false, ringReady := true } 0) := by
  unfold execRingInit at h
  split at h
  · injection h with h
    exact .inl h.symm
  · split at h
    · injection h with h
      exact .inl h.symm
    · injection h with h
      exact .inr ⟨by simpa using ‹¬capacityOk s.sizes cap = false›,
        by simpa using ‹¬blockLengthOk s.sizes blen = false›, h.symm⟩

/-- RING_AVAILABLE (40_ring.md R120). -/
theorem execRingAvailable_next {s t : State} (h : execRingAvailable s = .next t) :
    (s.ringReady = false ∧ t = s.raise .ringUninit) ∨ (s.ringReady = true ∧ t = s.ret s.count) := by
  unfold execRingAvailable at h
  split at h <;> injection h with h
  · exact .inl ⟨‹_›, h.symm⟩
  · exact .inr ⟨by simp_all, h.symm⟩

/-- RING_CONSUME (40_ring.md R121). -/
theorem execRingConsume_next {s t : State} (h : execRingConsume s = .next t) :
    (s.ringReady = false ∧ t = s.raise .ringUninit) ∨
    (s.ringReady = true ∧ s.count = 0 ∧ t = s.raise .empty) ∨
    (s.ringReady = true ∧ s.count ≠ 0 ∧
      t = State.ret { s with rd := (s.rd + 1) % s.k, count := s.count - 1 } s.rd) := by
  unfold execRingConsume at h
  split at h
  · injection h with h
    exact .inl ⟨‹_›, h.symm⟩
  · split at h <;> injection h with h
    · exact .inr (.inl ⟨by simp_all, ‹_›, h.symm⟩)
    · exact .inr (.inr ⟨by simp_all, ‹_›, h.symm⟩)

/-- RING_OVR_READ (40_ring.md R124). -/
theorem execRingOvrRead_next {s t : State} (h : execRingOvrRead s = .next t) :
    (s.ringReady = false ∧ t = s.raise .ringUninit) ∨ (s.ringReady = true ∧ t = s.ret s.ovr.toNat) := by
  unfold execRingOvrRead at h
  split at h <;> injection h with h
  · exact .inl ⟨‹_›, h.symm⟩
  · exact .inr ⟨by simp_all, h.symm⟩

/-- RING_OVR_CLEAR (40_ring.md R125). -/
theorem execRingOvrClear_next {s t : State} (h : execRingOvrClear s = .next t) :
    (s.ringReady = false ∧ t = s.raise .ringUninit) ∨
    (s.ringReady = true ∧ t = State.ret { s with ovr := false } 0) := by
  unfold execRingOvrClear at h
  split at h <;> injection h with h
  · exact .inl ⟨‹_›, h.symm⟩
  · exact .inr ⟨by simp_all, h.symm⟩

/-- The work of FB_DOWNSAMPLE (41_filter_bank.md R166): output bytes, written from the state itself on the identity route
and from the state with the cascade run on a cascade route. -/
theorem downsample_next {s t : State} {route : Route} {d : OutDepth} {base rawlen : Nat}
    (hr : route ≠ .unsupported) (h : s.downsample route d base rawlen = .next t) :
    (route = .identity ∧ ∃ bytes, s.output bytes = .next t) ∨
    (∃ r, route = .cascade r ∧
      (s.runCascade r (s.rawSamples base (rawlen / 3))).output
        (packBytes d (s.cascadeOutput r (s.rawSamples base (rawlen / 3)))) = .next t) := by
  cases route with
  | identity => cases d <;> exact .inl ⟨rfl, _, h⟩
  | cascade r => exact .inr ⟨r, rfl, h⟩
  | unsupported => exact absurd rfl hr

/-- FB_DOWNSAMPLE (41_filter_bank.md R165, R166): an error, the unsupported no-op, or the work. -/
theorem execFbDownsample_next {slot depth rawlen : Nat} {s t : State}
    (h : execFbDownsample slot depth rawlen s = .next t) :
    (∃ e, t = s.raise e) ∨ t = s.ret 0 ∨
    (DownsampleAllowed s slot rawlen ∧ routeOf s.target ≠ .unsupported ∧
      ∃ d, outDepth? depth = some d ∧
        s.downsample (routeOf s.target) d (slotBase s.sizes slot) rawlen = .next t) := by
  unfold execFbDownsample at h
  split at h
  · injection h with h
    exact .inl ⟨_, h.symm⟩
  · split at h
    · injection h with h
      exact .inl ⟨_, h.symm⟩
    · split at h
      · injection h with h
        exact .inl ⟨_, h.symm⟩
      · split at h
        · injection h with h
          exact .inr (.inl h.symm)
        · split at h
          · injection h with h
            exact .inr (.inl h.symm)
          · split at h
            · rename_i hfb hring hargs _ d hd hroute hin
              simp only [not_or, Nat.not_le, Nat.not_lt, ne_eq, not_not] at hargs
              exact .inr (.inr ⟨⟨by simpa using hfb, by simpa using hring, hargs.1, hargs.2.1, hargs.2.2⟩, hroute, d,
                hd, h⟩)
            · cases h

/-- FB_DOWNSAMPLE once its error checks have passed (41_filter_bank.md R166). -/
theorem execFbDownsample_allowed {s : State} {slot rawlen : Nat} (depth : Nat) (h : DownsampleAllowed s slot rawlen) :
    execFbDownsample slot depth rawlen s =
      match outDepth? depth with
      | none => .next (s.ret 0)
      | some d =>
        if routeOf s.target = .unsupported then .next (s.ret 0)
        else if s.inSpace .ring (slotBase s.sizes slot) rawlen then
          s.downsample (routeOf s.target) d (slotBase s.sizes slot) rawlen
        else .fault (.outsideSpace .ring) := by
  obtain ⟨h1, h2, h3, h4, h5⟩ := h
  unfold execFbDownsample
  rw [if_neg (by simp [h1]), if_neg (by simp [h2]), if_neg (by omega)]
  all_goals cases outDepth? depth <;> rfl

/-- In a good state the block FB_DOWNSAMPLE reads lies inside the ring (20_memory.md R62). -/
theorem downsample_inSpace {s : State} (hi : Inv s) {slot rawlen : Nat} (h : DownsampleAllowed s slot rawlen) :
    s.inSpace .ring (slotBase s.sizes slot) rawlen = true := by
  have hr := hi.ready h.ring_ready
  have h1 := hr.k_le
  have h2 := hr.blen_le
  have h3 := h.slot_lt
  have h4 := h.len_le
  have h5 : (slot + 1) * s.sizes.slotStride ≤ s.sizes.kMax * s.sizes.slotStride :=
    Nat.mul_le_mul_right _ (by omega)
  rw [Nat.add_mul] at h5
  have h6 : slot * s.sizes.slotStride + rawlen ≤ s.sizes.kMax * s.sizes.slotStride := by omega
  exact decide_eq_true h6

/-- In a good state a supported combination does the work of FB_DOWNSAMPLE (41_filter_bank.md R164, R166). -/
theorem execFbDownsample_supported {s : State} (hi : Inv s) {slot depth rawlen : Nat} {d : OutDepth}
    (h : DownsampleAllowed s slot rawlen) (hd : outDepth? depth = some d) (hr : routeOf s.target ≠ .unsupported) :
    execFbDownsample slot depth rawlen s =
      s.downsample (routeOf s.target) d (slotBase s.sizes slot) rawlen := by
  rw [execFbDownsample_allowed depth h, hd]
  simp only
  rw [if_neg hr, if_pos (downsample_inSpace hi h)]

/-- FMT_CONVERT (42_format.md R186). -/
theorem execFmtConvert_next {depth count : Nat} {s t : State} (h : execFmtConvert depth count s = .next t) :
    (s.sizes.nMax < count ∧ t = s.raise .arg) ∨
    (count ≤ s.sizes.nMax ∧ outDepth? depth = none ∧ t = s.ret 0) ∨
    (count ≤ s.sizes.nMax ∧ ∃ d, outDepth? depth = some d ∧
      s.output (packBytes d (s.fxpSamples count)) = .next t) := by
  unfold execFmtConvert at h
  split at h
  · injection h with h
    exact .inl ⟨‹_›, h.symm⟩
  · split at h
    · injection h with h
      exact .inr (.inl ⟨by omega, ‹_›, h.symm⟩)
    · split at h
      · exact .inr (.inr ⟨by omega, _, ‹_›, h⟩)
      · cases h

/-- What a command can do: raise an error, return a value, or one of the six effects that write more than RESULT. -/
theorem exec_next {i : Instr} {s t : State} (h : exec i s = .next t) :
    (∃ e, t = s.raise e) ∨
    (∃ v, t = s.ret v) ∨
    (∃ cap blen, i = .ringInit cap blen ∧ capacityOk s.sizes cap = true ∧ blockLengthOk s.sizes blen = true ∧
      t = State.ret
        { s with k := cap, blen := blen, wr := 0, rd := 0, count := 0, ovr := false, ringReady := true } 0) ∨
    (i = .ringConsume ∧ s.ringReady = true ∧ s.count ≠ 0 ∧
      t = State.ret { s with rd := (s.rd + 1) % s.k, count := s.count - 1 } s.rd) ∨
    (i = .ringOvrClear ∧ s.ringReady = true ∧ t = State.ret { s with ovr := false } 0) ∨
    (i = .fbInit ∧ t = State.ret { s with hist := zeroHistories s.filter.coef, fbReady := true } 0) ∨
    (∃ rate, i = .fbSetTarget rate ∧ t = State.ret { s with target := rate } 0) ∨
    (∃ bytes : List Byte, bytes.length ≤ 3 * s.sizes.nMax ∧
      (((∃ depth count, i = .fmtConvert depth count) ∧ t = (s.store .out 0 bytes).ret bytes.length) ∨
       ((∃ slot depth rawlen, i = .fbDownsample slot depth rawlen) ∧
        (t = (s.store .out 0 bytes).ret bytes.length ∨
         ∃ r x, t = ((s.runCascade r x).store .out 0 bytes).ret bytes.length)))) := by
  cases i with
  | nop => exact .inr (.inl ⟨0, by cases h; rfl⟩)
  | ringInit cap blen =>
    rcases execRingInit_next h with h | ⟨h1, h2, h⟩
    · exact .inl ⟨_, h⟩
    · exact .inr (.inr (.inl ⟨cap, blen, rfl, h1, h2, h⟩))
  | ringAvailable =>
    rcases execRingAvailable_next h with ⟨_, h⟩ | ⟨_, h⟩
    · exact .inl ⟨_, h⟩
    · exact .inr (.inl ⟨_, h⟩)
  | ringConsume =>
    rcases execRingConsume_next h with ⟨_, h⟩ | ⟨_, _, h⟩ | ⟨h1, h2, h⟩
    · exact .inl ⟨_, h⟩
    · exact .inl ⟨_, h⟩
    · exact .inr (.inr (.inr (.inl ⟨rfl, h1, h2, h⟩)))
  | ringOvrRead =>
    rcases execRingOvrRead_next h with ⟨_, h⟩ | ⟨_, h⟩
    · exact .inl ⟨_, h⟩
    · exact .inr (.inl ⟨_, h⟩)
  | ringOvrClear =>
    rcases execRingOvrClear_next h with ⟨_, h⟩ | ⟨h1, h⟩
    · exact .inl ⟨_, h⟩
    · exact .inr (.inr (.inr (.inr (.inl ⟨rfl, h1, h⟩))))
  | fbInit => exact .inr (.inr (.inr (.inr (.inr (.inl ⟨rfl, by cases h; rfl⟩)))))
  | fbSetTarget rate => exact .inr (.inr (.inr (.inr (.inr (.inr (.inl ⟨rate, rfl, by cases h; rfl⟩))))))
  | fbDownsample slot depth rawlen =>
    rcases execFbDownsample_next h with ⟨e, h⟩ | h | ⟨_, hr, d, _, h⟩
    · exact .inl ⟨e, h⟩
    · exact .inr (.inl ⟨_, h⟩)
    · refine .inr (.inr (.inr (.inr (.inr (.inr (.inr ?_))))))
      rcases downsample_next hr h with ⟨_, bytes, h⟩ | ⟨r, _, h⟩
      · obtain ⟨h1, h2⟩ := output_next h
        exact ⟨bytes, h1, .inr ⟨⟨_, _, _, rfl⟩, .inl h2⟩⟩
      · obtain ⟨h1, h2⟩ := output_next h
        exact ⟨_, h1, .inr ⟨⟨_, _, _, rfl⟩, .inr ⟨_, _, h2⟩⟩⟩
  | fmtConvert depth count =>
    rcases execFmtConvert_next h with ⟨_, h⟩ | ⟨_, _, h⟩ | ⟨_, d, _, h⟩
    · exact .inl ⟨_, h⟩
    · exact .inr (.inl ⟨_, h⟩)
    · obtain ⟨h1, h2⟩ := output_next h
      exact .inr (.inr (.inr (.inr (.inr (.inr (.inr ⟨_, h1, .inl ⟨⟨_, _, rfl⟩, h2⟩⟩))))))

/-- In a good state the slot a push writes lies inside the ring (20_memory.md R62). -/
theorem push_inSpace {s : State} (hi : Inv s) (hr : s.ringReady = true) :
    s.inSpace .ring (slotBase s.sizes s.wr) s.blen = true := by
  have h := hi.ready hr
  have h1 := h.k_le
  have h2 := h.blen_le
  have h3 := h.wr_lt
  have h5 : (s.wr + 1) * s.sizes.slotStride ≤ s.sizes.kMax * s.sizes.slotStride :=
    Nat.mul_le_mul_right _ (by omega)
  rw [Nat.add_mul] at h5
  have h6 : s.wr * s.sizes.slotStride + s.blen ≤ s.sizes.kMax * s.sizes.slotStride := by omega
  exact decide_eq_true h6

/-- The pending transactions play no part in whether a state is good. -/
theorem inv_inbox {s : State} (h : Inv s) (l : List Event) : Inv { s with inbox := l } := by
  obtain ⟨h1, h2, h3, h4, h5, h6⟩ := h
  refine ⟨h1, fun hr => ?_, fun hr => ?_, fun sp => ?_, fun sp => ?_, h6⟩
  · obtain ⟨a, b, c, d, e, f, g, i⟩ := h2 hr
    exact ⟨a, b, c, d, e, f, g, i⟩
  · obtain ⟨a, b, c, d, e, f⟩ := h3 hr
    exact ⟨a, b, c, d, e, f⟩
  · have := h4 sp
    cases sp <;> exact this
  · have := h5 sp
    cases sp <;> exact this

/-- A state with the registers, the sizes and the memories of a good one, and histories that fit, is good. -/
theorem inv_of_same {s t : State} (h : Inv s) (e1 : t.sizes = s.sizes) (e2 : t.filter = s.filter)
    (e3 : t.ringReady = s.ringReady) (e4 : t.k = s.k) (e5 : t.blen = s.blen) (e6 : t.wr = s.wr) (e7 : t.rd = s.rd)
    (e8 : t.count = s.count) (e9 : t.ovr = s.ovr) (e10 : ∀ sp, t.mem sp = s.mem sp)
    (e11 : HistoriesFit s.filter.coef t.hist) : Inv t := by
  obtain ⟨h1, h2, h3, h4, h5, h6⟩ := h
  refine ⟨e1 ▸ h1, fun hr => ?_, fun hr => ?_, fun sp => e10 sp ▸ h4 sp, fun sp => by rw [e10, e1]; exact h5 sp, e2 ▸ e11⟩
  · obtain ⟨a, b, c, d, e, f, g, i⟩ := h2 (e3 ▸ hr)
    constructor <;> first | (simp only [*]; done) | (simp only [*]; assumption)
  · obtain ⟨a, b, c, d, e, f⟩ := h3 (e3 ▸ hr)
    constructor <;> (try simp only [*])

/-- A store inside its space keeps a good state good. -/
theorem inv_store {s : State} (h : Inv s) (sp : Space) (b : Nat) (bs : List Byte)
    (hb : b + bs.length ≤ spaceSize s.sizes sp) : Inv (s.store sp b bs) := by
  obtain ⟨h1, h2, h3, h4, h5, h6⟩ := h
  refine ⟨by simpa using h1, fun hr => ?_, fun hr => ?_, fun sp' => ?_, fun sp' => ?_, by simpa using h6⟩
  · obtain ⟨a, b, c, d, e, f, g, i⟩ := h2 (by simpa using hr)
    constructor <;> simp <;> first | omega | simpa using a
  · obtain ⟨a, b, c, d, e, f⟩ := h3 (by simpa using hr)
    constructor <;> simpa
  · by_cases e : sp' = sp
    · subst e
      rw [mem_store_same]
      exact store_wf (h4 _) _ _
    · rw [mem_store_other s e]
      exact h4 _
  · by_cases e : sp' = sp
    · subst e
      rw [mem_store_same, store_sizes]
      exact store_bounded (h5 _) hb
    · rw [mem_store_other s e, store_sizes]
      exact h5 _

/-- BLOCK_READY (40_ring.md R117). -/
theorem blockReady_next {raw : List Byte} {s t : State} (h : blockReady raw s = .next t) :
    (s.ringReady = false ∧ t = s.setError .pushDrop) ∨
    (s.ringReady = true ∧ raw.length = s.blen ∧
      slotBase s.sizes s.wr + s.blen ≤ spaceSize s.sizes .ring ∧
      t = (s.store .ring (slotBase s.sizes s.wr) (swapSamples raw)).afterPush) := by
  unfold blockReady at h
  split at h
  · injection h with h
    exact .inl ⟨‹_›, h.symm⟩
  · split at h
    · cases h
    · split at h
      · rename_i hready hlen hin
        injection h with h
        exact .inr ⟨by simpa using hready, by simpa using hlen, by simpa [State.inSpace] using hin, h.symm⟩
      · cases h

/-- HostRead (20_memory.md R64 to R68): only `readData` changes, and E_BUS where the access is not performed. -/
theorem hostRead_next {addr : Word} {size : AccessSize} {s t : State} (h : hostRead addr size s = .next t) :
    (∃ target, s.busTarget? addr size = some target ∧ t = { s with readData := s.busRead target }) ∨
    (s.busTarget? addr size = none ∧ t = { s.setError .bus with readData := 0#32 }) := by
  unfold hostRead at h
  split at h <;> injection h with h
  · exact .inl ⟨_, ‹_›, h.symm⟩
  · exact .inr ⟨‹_›, h.symm⟩

/-- HostWrite (20_memory.md R65 to R68): a command, the clearing of error bits, a write of FXP, or a bus error. -/
theorem hostWrite_next {addr : Word} {size : AccessSize} {value : Word} {s t : State}
    (h : hostWrite addr size value s = .next t) :
    (s.busTarget? addr size = some .cmd ∧ runCommand value s = .next t) ∨
    (s.busTarget? addr size = some .status ∧ t = s.clearErrors value) ∨
    (∃ offset, s.busTarget? addr size = some (.fxpWindow offset) ∧
      t = s.memWrite .fxp offset 4 value.toNat) ∨
    t = s.setError .bus := by
  unfold hostWrite at h
  split at h
  · exact .inl ⟨‹_›, h⟩
  · injection h with h
    exact .inr (.inl ⟨‹_›, h.symm⟩)
  · injection h with h
    exact .inr (.inr (.inl ⟨_, ‹_›, h.symm⟩))
  all_goals
    injection h with h
    exact .inr (.inr (.inr h.symm))

/-- A command word (30_encoding.md R100): the command it decodes to, or E_ILLEGAL. -/
theorem runCommand_next {c : Word} {s t : State} (h : runCommand c s = .next t) :
    (∃ i, decode c = .ok i ∧ exec i s = .next t) ∨ (∃ e, decode c = .error e ∧ t = s.raise .illegal) := by
  unfold runCommand at h
  split at h
  · exact .inl ⟨_, ‹_›, h⟩
  · injection h with h
    exact .inr ⟨_, ‹_›, h.symm⟩

/-- A step takes the first pending event, or changes nothing. -/
theorem step_next {s t : State} (h : step s = .next t) :
    (s.inbox = [] ∧ t = s) ∨
    (∃ e rest, s.inbox = e :: rest ∧ applyEvent e { s with inbox := rest } = .next t) := by
  unfold step takeNextEvent at h
  split at h
  · injection h with h
    exact .inl ⟨‹_›, h.symm⟩
  · exact .inr ⟨_, _, ‹_›, h⟩

/-- A step with an event pending is what that event does. -/
theorem step_cons {s : State} {e : Event} {rest : List Event} (h : s.inbox = e :: rest) :
    step s = applyEvent e { s with inbox := rest } := by
  simp [step, takeNextEvent, h]

end Sys2Proof.Laws
end

