-- ==== Sys2Proof/Laws/Bus.lean ====
section
/-! SUPPORT. What the host bus reaches (20_memory.md R63, R68, R72): the address map read both ways, and what a performed
access does. -/

namespace Sys2Proof.Laws

open Sys2Proof.Machine Sys2Proof.Safety

/-- An access to CMD is a 4-byte access at address 0. -/
theorem busTarget_cmd {s : State} {addr : Word} {size : AccessSize} (h : s.busTarget? addr size = some .cmd) :
    addr = 0x0#32 ∧ size = .word := by
  unfold State.busTarget? at h
  split at h
  · rename_i hw
    refine ⟨?_, hw.1⟩
    unfold busMap at h
    repeat' split at h
    all_goals first
      | (cases h; done)
      | (apply BitVec.eq_of_toNat_eq; simpa using ‹_›)
      | (exfalso
         unfold windowOffset? at h
         revert h
         repeat' split
         all_goals simp)
  · cases h

/-- A write to CMD reaches CMD whatever the sizes (20_memory.md R63). -/
@[simp] theorem busTarget_zero (s : State) : s.busTarget? 0x0#32 .word = some .cmd := rfl

/-- An access to STATUS is a 4-byte access at address 8. -/
theorem busTarget_status {s : State} {a z} (h : s.busTarget? a z = some .status) : a = 0x8#32 ∧ z = .word := by
  unfold State.busTarget? at h
  split at h
  · rename_i hw
    refine ⟨?_, hw.1⟩
    unfold busMap at h
    repeat' split at h
    all_goals first
      | (cases h; done)
      | (apply BitVec.eq_of_toNat_eq; simpa using ‹_›)
      | (exfalso
         unfold windowOffset? at h
         revert h
         repeat' split
         all_goals simp)
  · cases h

/-- An address is in a window exactly when its offset is defined. -/
theorem windowOffset?_eq_some {b n a o : Nat} :
    windowOffset? b n a = some o ↔ (b ≤ a ∧ a < b + n) ∧ o = a - b := by
  unfold windowOffset?
  split <;> simp_all [eq_comm]

/-- An address outside a window has no offset in it. -/
theorem windowOffset?_eq_none {b n a : Nat} : windowOffset? b n a = none ↔ ¬ (b ≤ a ∧ a < b + n) := by
  unfold windowOffset?
  split <;> simp_all

/-- An access to FXP is a 4-byte, aligned access in its window. -/
theorem busTarget_fxp {s : State} {a z o} (h : s.busTarget? a z = some (.fxpWindow o)) :
    z = .word ∧ a.toNat % 4 = 0 ∧ InWindow s.sizes .fxp 0x20000 a.toNat ∧ o = a.toNat - 0x20000 := by
  unfold State.busTarget? at h
  split at h
  · rename_i hw
    refine ⟨hw.1, hw.2, ?_⟩
    unfold busMap at h
    cases h1 : windowOffset? 0x10000 (spaceSize s.sizes .out) a.toNat <;>
    cases h2 : windowOffset? 0x20000 (spaceSize s.sizes .fxp) a.toNat <;>
    cases h3 : windowOffset? 0x100000 (spaceSize s.sizes .ring) a.toNat <;>
    · simp only [h1, h2, h3] at h
      repeat' split at h
      all_goals first
        | (cases h; done)
        | (cases h; exact windowOffset?_eq_some.1 h2)
  · cases h

/-- An access that 20_memory.md R68 calls an error reaches nothing. -/
theorem busTarget_none {s : State} {a : Word} {z : AccessSize}
    (h : z ≠ .word ∨ a.toNat % 4 ≠ 0 ∨ ¬ Mapped s.sizes a.toNat) : s.busTarget? a z = none := by
  unfold State.busTarget?
  split
  · rename_i hw
    obtain ⟨rfl, h4⟩ := hw
    simp only [h4, not_true, false_or, ne_eq] at h
    simp only [Mapped, InWindow, not_or] at h
    obtain ⟨h0, h1, h2, h3⟩ := h
    unfold busMap
    rw [windowOffset?_eq_none.2 h1, windowOffset?_eq_none.2 h2, windowOffset?_eq_none.2 h3]
    repeat rw [if_neg (by omega)]
    rfl
  · rfl

/-- The OUT window ends before the FXP window starts (20_memory.md R63). -/
theorem spaceSize_out_le {z : Sizes} (h : z.Valid) : spaceSize z .out ≤ 0x10000 := by
  have := h.nMax_le; simp only [spaceSize]; omega

/-- The FXP window ends before the RING window starts (20_memory.md R63). -/
theorem spaceSize_fxp_le {z : Sizes} (h : z.Valid) : spaceSize z .fxp ≤ 0xE0000 := by
  have := h.nMax_le; simp only [spaceSize]; omega

/-- An aligned word access in the OUT window reaches OUT. -/
theorem busTarget_outWindow {s : State} {a : Word} (h : s.sizes.Valid) (h4 : a.toNat % 4 = 0)
    (hw : InWindow s.sizes .out 0x10000 a.toNat) :
    s.busTarget? a .word = some (.outWindow (a.toNat - 0x10000)) := by
  have h1 := spaceSize_out_le h
  have hw' := hw
  unfold InWindow at hw'
  unfold State.busTarget? busMap
  rw [if_pos ⟨rfl, h4⟩]
  repeat rw [if_neg (by omega)]
  rw [windowOffset?_eq_some.2 ⟨hw, rfl⟩]
  rfl

/-- An aligned word access in the FXP window reaches FXP. -/
theorem busTarget_fxpWindow {s : State} {a : Word} (h : s.sizes.Valid) (h4 : a.toNat % 4 = 0)
    (hw : InWindow s.sizes .fxp 0x20000 a.toNat) :
    s.busTarget? a .word = some (.fxpWindow (a.toNat - 0x20000)) := by
  have h1 := spaceSize_out_le h
  have hw' := hw
  unfold InWindow at hw'
  unfold State.busTarget? busMap
  rw [if_pos ⟨rfl, h4⟩]
  repeat rw [if_neg (by omega)]
  rw [windowOffset?_eq_none.2 (by omega), windowOffset?_eq_some.2 ⟨hw, rfl⟩]
  rfl

/-- An aligned word access in the RING window reaches RING. -/
theorem busTarget_ringWindow {s : State} {a : Word} (h : s.sizes.Valid) (h4 : a.toNat % 4 = 0)
    (hw : InWindow s.sizes .ring 0x100000 a.toNat) :
    s.busTarget? a .word = some (.ringWindow (a.toNat - 0x100000)) := by
  have h1 := spaceSize_out_le h
  have h2 := spaceSize_fxp_le h
  have hw' := hw
  unfold InWindow at hw'
  unfold State.busTarget? busMap
  rw [if_pos ⟨rfl, h4⟩]
  repeat rw [if_neg (by omega)]
  rw [windowOffset?_eq_none.2 (by omega), windowOffset?_eq_none.2 (by omega), windowOffset?_eq_some.2 ⟨hw, rfl⟩]
  rfl

/-- Four bytes of a space as one word, little-endian (00_scope.md R14, 20_memory.md R70). -/
theorem memRead4 (s : State) (sp : Space) (o : Nat) :
    BitVec.ofNat 32 (s.memRead sp o 4) =
      s.byteAt sp (o + 3) ++ s.byteAt sp (o + 2) ++ s.byteAt sp (o + 1) ++ s.byteAt sp o := by
  have e : s.bytesAt sp o 4 = [s.byteAt sp o, s.byteAt sp (o+1), s.byteAt sp (o+2), s.byteAt sp (o+3)] := by
    simp [State.bytesAt, List.range_succ]
  rw [State.memRead, e]
  generalize s.byteAt sp o = b0
  generalize s.byteAt sp (o+1) = b1
  generalize s.byteAt sp (o+2) = b2
  generalize s.byteAt sp (o+3) = b3
  apply BitVec.eq_of_toNat_eq
  have h0 := b0.isLt
  have h1 := b1.isLt
  have h2 := b2.isLt
  have h3 := b3.isLt
  have a1 := BitVec.toNat_append b3 b2
  have a2 := BitVec.toNat_append (b3 ++ b2) b1
  have a3 := BitVec.toNat_append (b3 ++ b2 ++ b1) b0
  rw [a3, a2, a1]
  rw [← Nat.shiftLeft_add_eq_or_of_lt (by omega), ← Nat.shiftLeft_add_eq_or_of_lt (by omega),
    ← Nat.shiftLeft_add_eq_or_of_lt (by omega)]
  simp only [leNat, Nat.shiftLeft_eq, BitVec.toNat_ofNat]
  omega

/-- A performed read. -/
theorem hostRead_some {s : State} {a : Word} {z : AccessSize} {t : BusTarget} (h : s.busTarget? a z = some t) :
    hostRead a z s = .next { s with readData := s.busRead t } := by
  unfold hostRead; rw [h]

/-- A performed write of FXP. -/
theorem hostWrite_fxp {s : State} {a : Word} {z : AccessSize} {o : Nat} (v : Word)
    (h : s.busTarget? a z = some (.fxpWindow o)) :
    hostWrite a z v s = .next (s.memWrite .fxp o 4 v.toNat) := by
  unfold hostWrite; rw [h]

end Sys2Proof.Laws
end

