-- ==== Sys2Proof/Laws/Decode.lean ====
section
/-! SUPPORT. The laws of the command word: a field as arithmetic on the word's number, and the number of each format's
word (30_encoding.md R92 to R96). -/

namespace Sys2Proof.Laws

/-- A field is its word's number divided and reduced. -/
theorem field_eq (c : Word) (lo len : Nat) : field c lo len = c.toNat / 2 ^ lo % 2 ^ len := by
  simp [field, BitVec.extractLsb'_toNat, Nat.shiftRight_eq_div_pow]

theorem field_lt (c : Word) (lo len : Nat) : field c lo len < 2 ^ len := by
  rw [field_eq]
  exact Nat.mod_lt _ (Nat.two_pow_pos len)

/-- A word's number from two fields that share it. -/
theorem field_split (c : Word) {lo : Nat} (h : lo ≤ 32) :
    c.toNat = field c 0 lo + 2 ^ lo * field c lo (32 - lo) := by
  have hc := c.isLt
  have h2 : c.toNat / 2 ^ lo < 2 ^ (32 - lo) := by
    rw [Nat.div_lt_iff_lt_mul (Nat.two_pow_pos lo), ← Nat.pow_add]
    simpa [Nat.sub_add_cancel h] using hc
  rw [field_eq, field_eq, Nat.mod_eq_of_lt h2, pow_zero, Nat.div_one, Nat.mod_add_div]

@[simp] theorem code_ofCode (n : Nat) (h : n < 8) : (RateCode.ofCode n).code = n := by
  interval_cases n <;> rfl

@[simp] theorem ofCode_code (r : RateCode) : RateCode.ofCode r.code = r := by
  cases r <;> rfl

theorem code_lt (r : RateCode) : r.code < 8 := by
  cases r <;> decide

/-- Format F0 (30_encoding.md R92). -/
theorem encodeF0_toNat (op : Nat) : (encodeF0 op).toNat = op % 16 := by
  have h := BitVec.toNat_append 0#28 (BitVec.ofNat 4 op)
  have h2 : (encodeF0 op).toNat = 0 <<< 4 ||| op % 2 ^ 4 := h
  simpa using h2

/-- Format FI (30_encoding.md R93). -/
theorem encode_ringInit_toNat (cap blen : Nat) :
    (encode (.ringInit cap blen)).toNat = 1 + cap % 2 ^ 8 * 2 ^ 4 + blen % 2 ^ 16 * 2 ^ 16 := by
  simp only [encode, BitVec.toNat_append, BitVec.toNat_ofNat]
  rw [← Nat.shiftLeft_add_eq_or_of_lt (by omega), ← Nat.shiftLeft_add_eq_or_of_lt (by omega),
    ← Nat.shiftLeft_add_eq_or_of_lt (by omega)]
  simp only [Nat.shiftLeft_eq]
  omega

/-- Format FT (30_encoding.md R94). -/
theorem encode_fbSetTarget_toNat (r : RateCode) : (encode (.fbSetTarget r)).toNat = 7 + r.code * 2 ^ 4 := by
  cases r <;> rfl

/-- Format FD (30_encoding.md R95). -/
theorem encode_fbDownsample_toNat (slot depth rawlen : Nat) :
    (encode (.fbDownsample slot depth rawlen)).toNat =
      8 + slot % 2 ^ 7 * 2 ^ 4 + depth % 2 ^ 5 * 2 ^ 11 + rawlen % 2 ^ 16 * 2 ^ 16 := by
  simp only [encode, BitVec.toNat_append, BitVec.toNat_ofNat]
  rw [← Nat.shiftLeft_add_eq_or_of_lt (by omega), ← Nat.shiftLeft_add_eq_or_of_lt (by omega),
    ← Nat.shiftLeft_add_eq_or_of_lt (by omega)]
  simp only [Nat.shiftLeft_eq]
  omega

/-- Format FC (30_encoding.md R96). -/
theorem encode_fmtConvert_toNat (depth count : Nat) :
    (encode (.fmtConvert depth count)).toNat = 9 + depth % 2 ^ 5 * 2 ^ 11 + count % 2 ^ 16 * 2 ^ 16 := by
  simp only [encode, BitVec.toNat_append, BitVec.toNat_ofNat]
  rw [← Nat.shiftLeft_add_eq_or_of_lt (by omega), ← Nat.shiftLeft_add_eq_or_of_lt (by omega),
    ← Nat.shiftLeft_add_eq_or_of_lt (by omega)]
  simp only [Nat.shiftLeft_eq]
  omega

end Sys2Proof.Laws
end

