-- ==== Sys2Proof/Laws/PerInstr.lean ====
section
/-! SUPPORT. Per-instruction families. OpcodeField: bits 3:0 of every command's word are its opcode (30_encoding.md R90,
R91). -/

namespace Sys2Proof.Laws

/-- Bits 3:0 of the word of `i` are its opcode. -/
def OpcodeField.Statement (i : Instr) : Prop :=
  field (encode i) 0 4 = i.opcode

theorem OpcodeField.nop : OpcodeField.Statement .nop := by
  simp [OpcodeField.Statement, field_eq, encode, encodeF0_toNat, Instr.opcode]

theorem OpcodeField.ringInit (cap blen : Nat) : OpcodeField.Statement (.ringInit cap blen) := by
  rw [OpcodeField.Statement, field_eq, encode_ringInit_toNat, Instr.opcode]
  omega

theorem OpcodeField.ringAvailable : OpcodeField.Statement .ringAvailable := by
  simp [OpcodeField.Statement, field_eq, encode, encodeF0_toNat, Instr.opcode]

theorem OpcodeField.ringConsume : OpcodeField.Statement .ringConsume := by
  simp [OpcodeField.Statement, field_eq, encode, encodeF0_toNat, Instr.opcode]

theorem OpcodeField.ringOvrRead : OpcodeField.Statement .ringOvrRead := by
  simp [OpcodeField.Statement, field_eq, encode, encodeF0_toNat, Instr.opcode]

theorem OpcodeField.ringOvrClear : OpcodeField.Statement .ringOvrClear := by
  simp [OpcodeField.Statement, field_eq, encode, encodeF0_toNat, Instr.opcode]

theorem OpcodeField.fbInit : OpcodeField.Statement .fbInit := by
  simp [OpcodeField.Statement, field_eq, encode, encodeF0_toNat, Instr.opcode]

theorem OpcodeField.fbSetTarget (rate : RateCode) : OpcodeField.Statement (.fbSetTarget rate) := by
  rw [OpcodeField.Statement, field_eq, encode_fbSetTarget_toNat, Instr.opcode]
  omega

theorem OpcodeField.fbDownsample (slot depth rawlen : Nat) :
    OpcodeField.Statement (.fbDownsample slot depth rawlen) := by
  rw [OpcodeField.Statement, field_eq, encode_fbDownsample_toNat, Instr.opcode]
  omega

theorem OpcodeField.fmtConvert (depth count : Nat) : OpcodeField.Statement (.fmtConvert depth count) := by
  rw [OpcodeField.Statement, field_eq, encode_fmtConvert_toNat, Instr.opcode]
  omega

end Sys2Proof.Laws
end

