-- ==== Sys2Proof/Tests/Slice0.lean ====
section
/-! SUPPORT. Tests of the model, with expected results from spec/95_test_vectors.md and 30_encoding.md, and for every
obligation with hypotheses a concrete state and operands that meet them together. -/

namespace Sys2Proof.Tests

open Sys2Proof.Machine Sys2Proof.Safety Sys2Proof.Laws

/-! ### Well-formedness: an ill-formed term for each check -/

theorem test_wellFormed_cap : (Instr.ringInit 256 3).wellFormed = false := by decide
theorem test_wellFormed_blen : (Instr.ringInit 1 65536).wellFormed = false := by decide
theorem test_wellFormed_slot : (Instr.fbDownsample 128 16 3).wellFormed = false := by decide
theorem test_wellFormed_depth : (Instr.fbDownsample 0 32 3).wellFormed = false := by decide
theorem test_wellFormed_rawlen : (Instr.fbDownsample 0 16 65536).wellFormed = false := by decide
theorem test_wellFormed_fmt_depth : (Instr.fmtConvert 32 1).wellFormed = false := by decide
theorem test_wellFormed_count : (Instr.fmtConvert 24 65536).wellFormed = false := by decide

/-! ### Decoding: words written out from the formats of 30_encoding.md R92 to R96, and the words of 95_test_vectors.md
L2.1 -/

/-- F0: OP 0x0. -/
theorem test_decode_nop : decode (0b0000000000000000000000000000#28 ++ 0b0000#4) = .ok .nop := by decide
/-- FI: BLEN 24768, reserved 0, CAP 16, OP 0x1. -/
theorem test_decode_ringInit :
    decode (0b0110000011000000#16 ++ 0b0000#4 ++ 0b00010000#8 ++ 0b0001#4) = .ok (.ringInit 16 24768) := by decide
theorem test_decode_ringAvailable :
    decode (0b0000000000000000000000000000#28 ++ 0b0010#4) = .ok .ringAvailable := by decide
theorem test_decode_ringConsume : decode (0b0000000000000000000000000000#28 ++ 0b0011#4) = .ok .ringConsume := by decide
theorem test_decode_ringOvrRead : decode (0b0000000000000000000000000000#28 ++ 0b0100#4) = .ok .ringOvrRead := by decide
theorem test_decode_ringOvrClear :
    decode (0b0000000000000000000000000000#28 ++ 0b0101#4) = .ok .ringOvrClear := by decide
theorem test_decode_fbInit : decode (0b0000000000000000000000000000#28 ++ 0b0110#4) = .ok .fbInit := by decide
/-- FT: reserved 0, RATE 4, OP 0x7. -/
theorem test_decode_fbSetTarget :
    decode (0b0000000000000000000000000#25 ++ 0b100#3 ++ 0b0111#4) = .ok (.fbSetTarget .div12) := by decide
/-- FD: RAWLEN 24768, DEPTH 24, SLOT 3, OP 0x8. -/
theorem test_decode_fbDownsample :
    decode (0b0110000011000000#16 ++ 0b11000#5 ++ 0b0000011#7 ++ 0b1000#4) = .ok (.fbDownsample 3 24 24768) := by decide
/-- FC: COUNT 4, DEPTH 24, reserved 0, OP 0x9. -/
theorem test_decode_fmtConvert :
    decode (0b0000000000000100#16 ++ 0b11000#5 ++ 0b0000000#7 ++ 0b1001#4) = .ok (.fmtConvert 24 4) := by decide

/-- The other words of L2.1, and each of the eight rate codes of R97. -/
theorem test_decode_rates :
    [0x07#32, 0x17#32, 0x27#32, 0x37#32, 0x47#32, 0x57#32, 0x67#32, 0x77#32].map (decodeTableWord 32 ·.toNat) =
      [.native, .div2, .div4, .div8, .div12, .div16, .div24, .reserved].map (fun r => some (.fbSetTarget r)) := by decide

/-- The illegal words of L2.1. -/
theorem test_decode_illegal :
    [0x0000000A, 0x0000000F, 0x00000012, 0xFFFFFFF0, 0x60C01101, 0x00000087, 0x0004C019].map (decodeTableWord 32) =
      [none, none, none, none, none, none, none] := by decide

/-- FD has no reserved bits (L2.1). -/
theorem test_decode_all_ones : decode 0xFFFFFFF8#32 = .ok (.fbDownsample 127 31 65535) := by decide

/-! ### A small machine

K_MAX = 2, N_MAX = 8, CNT_W = 2, and the filter parameters TF of 95_test_vectors.md. -/

def testSizes : Sizes := { kMax := 2, nMax := 8, cntW := 2 }

def testTaps : Taps := { first := 0x20000000#32, rest := [0x40000000#32, 0x20000000#32] }

def testFilter : FilterParams := { coef := bankOf (fun _ _ => testTaps), pos3Div12 := 2, pos3Div24 := 3, reduce := .standard }

/-- The machine after reset, its histories zero, with transactions pending. -/
def testIdle (inbox : List Event) : State :=
  { State.afterReset testSizes testFilter 0 with hist := zeroHistories testFilter.coef, inbox := inbox }

/-- A ready ring of two slots of 12 bytes, `count` blocks pushed, the bytes of slot 0 given; the filter bank ready. -/
def testRing (bytes : List Byte) (count : Nat) (inbox : List Event) : State :=
  { testIdle inbox with
    ringReady := true, k := 2, blen := 12, wr := count % 2, rd := 0, count := count, fbReady := true,
    ringMem := Memory.cells 0 bytes }

/-- The block of V-F1 as the ring holds it. -/
def blockF1 : List Byte :=
  [0x00#8, 0x00#8, 0x80#8, 0xFF#8, 0xFF#8, 0x7F#8, 0xFF#8, 0xFF#8, 0xFF#8, 0x56#8, 0x34#8, 0x12#8]

/-- The block of V-F1 in wire order. -/
def wireF1 : List Byte :=
  [0x80#8, 0x00#8, 0x00#8, 0x7F#8, 0xFF#8, 0xFF#8, 0xFF#8, 0xFF#8, 0xFF#8, 0x12#8, 0x34#8, 0x56#8]

/-- The block of V-F3 as the ring holds it. -/
def blockF3 : List Byte :=
  [0x00#8, 0x00#8, 0x10#8, 0x00#8, 0x00#8, 0x20#8, 0x00#8, 0x00#8, 0x30#8, 0x00#8, 0x00#8, 0x40#8]

/-- What a step or a command leaves in some of the state. -/
def seen {α : Type} (a : Answer) (f : State → α) : Option α :=
  (nextState? a).map f

theorem testSizes_valid : testSizes.Valid := by constructor <;> decide

theorem testIdle_inv (inbox : List Event) : Inv (testIdle inbox) := by
  refine ⟨testSizes_valid, nofun, fun _ => ⟨rfl, rfl, rfl, rfl, rfl, rfl⟩, fun sp => ?_, fun sp => ?_,
    zeroHistories_fit _⟩ <;> cases sp
  all_goals first
    | exact List.Pairwise.nil
    | exact nofun

theorem testRing_inv (count : Nat) (h : count ≤ 3) (inbox : List Event) : Inv (testRing blockF1 count inbox) := by
  refine ⟨testSizes_valid, fun _ => ?_, nofun, fun sp => ?_, fun sp => ?_, zeroHistories_fit _⟩
  · refine ⟨(by decide : (2 : Nat) ∈ [1, 2, 4, 8, 16, 32, 64, 128]), (by decide : 2 ≤ 2), (by decide : 12 ≠ 0),
      (by decide : 12 % 3 = 0), (by decide : 12 ≤ 24), ?_, (by decide : 0 < 2), h⟩
    exact Nat.mod_lt _ (by decide)
  · cases sp
    · exact cells_wf blockF1 0
    · exact List.Pairwise.nil
    · exact List.Pairwise.nil
  · cases sp
    · intro x hx
      have := (mem_cells (bs := blockF1) hx).2
      exact Nat.lt_of_lt_of_le this (by decide : 12 ≤ 48)
    · exact nofun
    · exact nofun

theorem testRing_allowed (count : Nat) (inbox : List Event) : DownsampleAllowed (testRing blockF1 count inbox) 1 12 :=
  ⟨rfl, rfl, (by decide : 1 < 2), by decide, (by decide : 12 ≤ 12)⟩

/-! ### One small step of each instruction -/

/-- R190. -/
theorem test_nop : seen (exec .nop { testIdle [] with result := 5#32 }) (·.result) = some 0#32 := by decide

/-- L1.8 step 1 at the sizes of State.reset. -/
theorem test_ringInit :
    seen (exec (.ringInit 16 24768) State.reset) (fun t => (t.result, t.k, t.blen, t.ringReady)) =
      some (0#32, 16, 24768, true) := by decide
/-- V-R2: not a power of two. -/
theorem test_ringInit_not_power :
    seen (exec (.ringInit 3 3) State.reset) (fun t => (t.result, t.errors, t.ringReady)) =
      some (0xFFFFFFFF#32, 0b0010000#7, false) := by decide

/-- R120: COUNT may exceed K. -/
theorem test_ringAvailable : seen (exec .ringAvailable (testRing blockF1 3 [])) (·.result) = some 3#32 := by decide
/-- V-R8. -/
theorem test_ringAvailable_uninit :
    seen (exec .ringAvailable (testIdle [])) (fun t => (t.result, t.statusWord)) =
      some (0xFFFFFFFF#32, 0x00000200#32) := by decide

/-- V-R12: the second of three consumes on a ring of two slots that three pushes filled. -/
theorem test_ringConsume_wraps :
    seen (exec .ringConsume { testRing blockF1 2 [] with rd := 1, wr := 1 })
      (fun t => (t.result, t.rd, t.count)) = some (1#32, 0, 1) := by decide
/-- V-R13. -/
theorem test_ringConsume_empty :
    seen (exec .ringConsume (testRing blockF1 0 [])) (fun t => (t.result, t.errors, t.rd, t.count)) =
      some (0xFFFFFFFF#32, 0b0001000#7, 0, 0) := by decide

/-- L1.6: reading the flag does not clear it. -/
theorem test_ringOvrRead :
    seen (exec .ringOvrRead { testRing blockF1 3 [] with ovr := true }) (fun t => (t.result, t.ovr)) =
      some (1#32, true) := by decide
/-- V-R17. -/
theorem test_ringOvrRead_clear : seen (exec .ringOvrRead (testRing blockF1 2 [])) (·.result) = some 0#32 := by decide

/-- L1.6: clearing the flag leaves COUNT. -/
theorem test_ringOvrClear :
    seen (exec .ringOvrClear { testRing blockF1 3 [] with ovr := true }) (fun t => (t.result, t.ovr, t.count)) =
      some (0#32, false, 3) := by decide

/-- V-F21: TARGET is kept through FB_INIT; R160: the histories are zeros, T - 1 of them for each stage. -/
theorem test_fbInit :
    seen (exec .fbInit { testIdle [] with target := .div12, hist := bankMap (fun _ _ _ => [1#32, 1#32]) testFilter.coef })
      (fun t => (t.result, t.target, t.fbReady, bankGet t.hist .div4)) =
      some (0#32, .div12, true, [[0#32, 0#32], [0#32, 0#32]]) := by decide

/-- R162: code 7 is stored. -/
theorem test_fbSetTarget_reserved :
    seen (exec (.fbSetTarget .reserved) (testIdle [])) (fun t => (t.result, t.target)) = some (0#32, .reserved) := by
  decide

/-- V-F2. -/
theorem test_fbDownsample_native16 :
    seen (exec (.fbDownsample 0 16 12) (testRing blockF1 1 [])) (fun t => (t.result, t.bytesAt .out 0 8)) =
      some (8#32, [0x00#8, 0x80#8, 0xFF#8, 0x7F#8, 0xFF#8, 0xFF#8, 0x34#8, 0x12#8]) := by decide
/-- V-F4, first call. -/
theorem test_fbDownsample_div2 :
    seen (exec (.fbDownsample 0 24 12) { testRing blockF3 1 [] with target := .div2 })
      (fun t => (t.result, t.bytesAt .out 0 6, bankGet t.hist .div2)) =
      some (6#32, [0x00#8, 0x00#8, 0x10#8, 0x00#8, 0x00#8, 0x30#8], [[0x30000000#32, 0x40000000#32]]) := by decide

/-- 95_test_vectors.md L2.4, depth 16, the first, fifth and sixth words of the table. -/
theorem test_fmtConvert_16 :
    seen (exec (.fmtConvert 16 3)
        ((((testIdle []).memWrite .fxp 0 4 0x12345678).memWrite .fxp 4 4 0x0000FFFF).memWrite .fxp 8 4 0xFFFF0000))
      (fun t => (t.result, t.bytesAt .out 0 6)) =
      some (6#32, [0x34#8, 0x12#8, 0x00#8, 0x00#8, 0xFF#8, 0xFF#8]) := by decide
/-- L2.4: COUNT above N_MAX. -/
theorem test_fmtConvert_arg :
    seen (exec (.fmtConvert 24 8257) State.reset) (fun t => (t.result, t.errors)) =
      some (0xFFFFFFFF#32, 0b0010000#7) := by decide

/-! ### The producer, the host bus and the filter engine -/

/-- L1.7, V-F1: the block in wire order is stored with each sample's bytes swapped. -/
theorem test_push_swaps :
    seen (step (testRing [] 0 [.blockReady wireF1])) (fun t => (t.bytesAt .ring 0 12, t.wr, t.count, t.ovr)) =
      some (blockF1, 1, 1, false) := by decide

/-- V-R11: the third push on a ring of two slots sets OVR. -/
theorem test_push_overruns :
    seen (step (testRing blockF1 2 [.blockReady wireF1])) (fun t => (t.wr, t.count, t.ovr)) = some (1, 3, true) := by decide

/-- V-R15 at CNT_W = 2: COUNT saturates. -/
theorem test_push_saturates :
    seen (step { testRing blockF1 3 [.blockReady wireF1] with ovr := true }) (fun t => (t.wr, t.count, t.ovr)) =
      some (0, 3, true) := by decide

/-- V-R9. -/
theorem test_push_dropped :
    seen (step (testIdle [.blockReady [1#8, 2#8, 3#8]])) (fun t => (t.statusWord, t.result, t.ringMem)) =
      some (0x00004000#32, 0#32, []) := by decide

/-- V-B1. -/
theorem test_bus_param :
    seen (step { State.reset with inbox := [.hostRead 0x14#32 .word] }) (·.readData) = some 0x20401010#32 := by decide

/-- V-B3 to V-B6: misaligned, narrow, unmapped, and the first byte past the OUT window. -/
theorem test_bus_errors :
    [(0x2#32, AccessSize.word), (0x8#32, .half), (0x18#32, .word), (0x160C0#32, .word)].map
        (fun x => seen (step { State.reset with inbox := [.hostRead x.1 x.2] }) (fun t => (t.readData, t.errors))) =
      List.replicate 4 (some (0#32, 0b0100000#7)) := by decide

/-- V-B9: only the bit written as 1 is cleared. -/
theorem test_bus_status_clear :
    seen (step { State.reset with errors := 0b1110111#7, inbox := [.hostWrite 0x8#32 .word 0x100#32] })
      (·.statusWord) = some 0x00007600#32 := by decide

/-- V-B11, the write. -/
theorem test_bus_fxp_write :
    seen (step { State.reset with inbox := [.hostWrite 0x20000#32 .word 0x12345678#32] }) (·.bytesAt .fxp 0 4) =
      some [0x78#8, 0x56#8, 0x34#8, 0x12#8] := by decide

/-- 30_encoding.md R100 on a word of L2.1. -/
theorem test_bus_illegal :
    seen (step { State.reset with inbox := [.hostWrite 0x0#32 .word 0x12#32] }) (fun t => (t.result, t.statusWord)) =
      some (0xFFFFFFFF#32, 0x00000100#32) := by decide

/-- An opcode-table word placed by withFetchWord is what the next step runs: RING_INIT cap=16, blen=24768 (L1.8). -/
theorem test_withFetchWord :
    seen (step (State.reset.withFetchWord 32 0x60C00101)) (fun t => (t.result, t.k, t.blen)) = some (0#32, 16, 24768) := by
  decide

/-- V-F22: a full-scale positive input wraps to a negative output. -/
theorem test_firReduce_wraps :
    firReduce (firDot ⟨0x7FFFFFFF#32, [0x7FFFFFFF#32, 0x7FFFFFFF#32]⟩
        [0#32, 0#32, 0x7FFFFF00#32, 0x7FFFFF00#32] 3) = 0xFFFFFDFE#32 := by decide

/-- V-F23: one tap, an empty history, truncation toward minus infinity. -/
theorem test_stage_one_tap :
    stageOutput firReduce ⟨.two, ⟨0x7FFFFFFF#32, []⟩, []⟩ [0x12345600#32, 0x65432100#32] = [0x654320FF#32] := by decide

/-- A 3:1 stage with TF: `floor((x[3k+2] + 2 x[3k+1] + x[3k]) / 4)` (95_test_vectors.md, TF). -/
theorem test_stage_three :
    stageOutput firReduce ⟨.three, testTaps, [9#32, 9#32]⟩ [4#32, 8#32, 20#32, 5#32] = [10#32] := by decide

/-- 41_filter_bank.md R156: stage input lengths of the six cascades for the full block of 8256 samples. -/
theorem test_stageInputLength :
    (List.range 4).map (fun n => stageInputLength (cascadeFactors testFilter .div24) n 8256) = [8256, 4128, 2064, 1032] := by
  decide

/-! ### Witnesses: for each obligation with hypotheses, a concrete input that meets all of them, at the boundaries of its
clauses -/

theorem witness_DecodeUndoesEncode :
    (Instr.ringInit 255 65535).wellFormed = true ∧ (Instr.fbDownsample 127 31 65535).wellFormed = true ∧
      (Instr.fmtConvert 31 65535).wellFormed = true ∧ (Instr.fbSetTarget .reserved).wellFormed = true := by decide

theorem witness_EncodeUndoesDecode :
    decode 0x60C00101#32 = .ok (.ringInit 16 24768) ∧ decode 0xFFFFFFF8#32 = .ok (.fbDownsample 127 31 65535) := by
  decide

/-- The lowest and the highest reserved opcode, and one reserved bit of each format that has any. -/
theorem witness_IllegalWordRaisesAndOnlyIllegalWordsAreRejected :
    (∀ c ∈ [0x0000000A#32, 0x0000000F#32, 0x00000012#32, 0x80000006#32, 0x00001001#32, 0x00008001#32, 0x00000087#32,
        0x80000007#32, 0x00000019#32, 0x00000409#32], IllegalWordPattern c) ∧
      (testIdle [.hostWrite 0x0#32 .word 0xA#32]).inbox = [.hostWrite 0x0#32 .word 0xA#32] := by
  refine ⟨fun c hc => ?_, rfl⟩
  simp only [List.mem_cons, List.not_mem_nil, or_false] at hc
  rcases hc with rfl | rfl | rfl | rfl | rfl | rfl | rfl | rfl | rfl | rfl
  all_goals
    unfold IllegalWordPattern
    decide

theorem witness_StepRunsTheCommandWrittenToCmd :
    (testIdle [.hostWrite 0x0#32 .word 0x3#32]).inbox = .hostWrite 0x0#32 .word 0x3#32 :: [] ∧
      decode 0x3#32 = .ok .ringConsume ∧
      (testIdle [.hostRead 0x0#32 .word]).inbox = .hostRead 0x0#32 .word :: [] := by decide

theorem witness_NothingHappensWithoutTransaction : (testIdle []).inbox = [] := by decide

theorem witness_HardwareResetValues : (testRing blockF1 3 [.reset]).inbox = .reset :: [] := by decide

/-- The largest legal operands and the smallest; CAP not a power of two, CAP above K_MAX, BLEN above 3 * N_MAX. -/
theorem witness_RingInitSetsUpRingOrRaisesArg :
    (255 < 2 ^ 8 ∧ 65535 < 2 ^ 16) ∧ (testIdle []).sizes.Valid ∧
      (((∃ n : Nat, 2 = 2 ^ n) ∧ 2 ≤ (testIdle []).sizes.kMax) ∧ 24 ≠ 0 ∧ 24 % 3 = 0 ∧
        24 ≤ 3 * (testIdle []).sizes.nMax) ∧
      (((∃ n : Nat, 1 = 2 ^ n) ∧ 1 ≤ (testIdle []).sizes.kMax) ∧ 3 ≠ 0 ∧ 3 % 3 = 0 ∧
        3 ≤ 3 * (testIdle []).sizes.nMax) ∧
      ¬(((∃ n : Nat, 4 = 2 ^ n) ∧ 4 ≤ (testIdle []).sizes.kMax) ∧ 3 ≠ 0 ∧ 3 % 3 = 0 ∧
        3 ≤ 3 * (testIdle []).sizes.nMax) ∧
      ¬(((∃ n : Nat, 2 = 2 ^ n) ∧ 2 ≤ (testIdle []).sizes.kMax) ∧ 27 ≠ 0 ∧ 27 % 3 = 0 ∧
        27 ≤ 3 * (testIdle []).sizes.nMax) :=
  ⟨by decide, testSizes_valid, ⟨⟨⟨1, rfl⟩, by decide⟩, by decide⟩, ⟨⟨⟨0, rfl⟩, by decide⟩, by decide⟩,
    fun h => absurd h.1.2 (by decide), fun h => absurd h.2.2.2 (by decide)⟩

theorem witness_RingAvailableReturnsCount :
    (testIdle []).ringReady = false ∧ Inv (testRing blockF1 3 []) ∧ (testRing blockF1 3 []).ringReady = true :=
  ⟨rfl, testRing_inv 3 (by decide) [], rfl⟩

theorem witness_RingConsumeReturnsSlotOrRaisesEmpty :
    (testIdle []).ringReady = false ∧
      ((testRing blockF1 0 []).ringReady = true ∧ (testRing blockF1 0 []).count = 0) ∧
      ((testRing blockF1 1 []).ringReady = true ∧ (testRing blockF1 1 []).count ≠ 0) := by decide

theorem witness_OverrunFlagCommands :
    (testIdle []).ringReady = false ∧ Instr.ringOvrClear ∈ [Instr.ringOvrRead, .ringOvrClear] ∧
      (testRing blockF1 3 []).ringReady = true := by decide

theorem witness_RingCommandsNeedReadyRing :
    Instr.ringConsume ∈ [Instr.ringAvailable, .ringConsume, .ringOvrRead, .ringOvrClear] ∧
      (testIdle []).ringReady = false := by decide

/-- Each clause: the bank not ready; the ring not ready; SLOT = K; RAWLEN not a multiple of 3; RAWLEN just above BLEN. -/
theorem witness_DownsampleErrorsInOrder :
    (testIdle []).fbReady = false ∧
      (({ testIdle [] with fbReady := true } : State).fbReady = true ∧
        ({ testIdle [] with fbReady := true } : State).ringReady = false) ∧
      (testRing blockF1 1 []).fbReady = true ∧ (testRing blockF1 1 []).ringReady = true ∧
      ((testRing blockF1 1 []).k ≤ 2 ∨ 12 % 3 ≠ 0 ∨ (testRing blockF1 1 []).blen < 12) ∧
      ((testRing blockF1 1 []).k ≤ 1 ∨ 11 % 3 ≠ 0 ∨ (testRing blockF1 1 []).blen < 11) ∧
      ((testRing blockF1 1 []).k ≤ 1 ∨ 15 % 3 ≠ 0 ∨ (testRing blockF1 1 []).blen < 15) := by decide

theorem witness_UnsupportedCombinationIsNoOp :
    DownsampleAllowed (testRing blockF1 1 []) 1 12 ∧
      ((testRing blockF1 1 []).target = .reserved ∨ ((20 : Nat) ≠ 16 ∧ (20 : Nat) ≠ 24)) ∧
      DownsampleAllowed { testRing blockF1 1 [] with target := .reserved } 1 12 ∧
      ({ testRing blockF1 1 [] with target := .reserved } : State).target = .reserved :=
  ⟨testRing_allowed 1 [], by decide, ⟨rfl, rfl, by decide, by decide, by decide⟩, rfl⟩

theorem witness_NativeDepth24IsIdentity :
    Inv (testRing blockF1 1 []) ∧ DownsampleAllowed (testRing blockF1 1 []) 1 12 ∧
      (testRing blockF1 1 []).target = .native :=
  ⟨testRing_inv 1 (by decide) [], testRing_allowed 1 [], rfl⟩

theorem witness_NativeDepth16KeepsTopTwoBytes :
    Inv (testRing blockF1 1 []) ∧ DownsampleAllowed (testRing blockF1 1 []) 1 12 ∧
      (testRing blockF1 1 []).target = .native :=
  ⟨testRing_inv 1 (by decide) [], testRing_allowed 1 [], rfl⟩

/-- A ready machine with TARGET at native/24. -/
def testDiv24 : State := { testRing blockF1 1 [] with target := .div24 }

theorem testDiv24_inv : Inv testDiv24 := by
  have h := testRing_inv 1 (by decide) []
  exact inv_of_same h rfl rfl rfl rfl rfl rfl rfl rfl rfl (fun sp => by cases sp <;> rfl) h.histories

theorem testDiv24_allowed : DownsampleAllowed testDiv24 1 12 :=
  ⟨rfl, rfl, by decide, by decide, by decide⟩

theorem witness_CascadeDownsampleWritesCascadeOutput :
    Inv testDiv24 ∧ DownsampleAllowed testDiv24 1 12 ∧ DepthBytes 24 3 ∧ DepthBytes 16 2 ∧
      routeOf testDiv24.target = .cascade .div24 :=
  ⟨testDiv24_inv, testDiv24_allowed, .inr ⟨rfl, rfl⟩, .inl ⟨rfl, rfl⟩, rfl⟩

theorem witness_DownsampleLengthLawAndFrame :
    Inv testDiv24 ∧ DownsampleAllowed testDiv24 1 12 ∧ DepthBytes 16 2 ∧ testDiv24.target ≠ .reserved :=
  ⟨testDiv24_inv, testDiv24_allowed, .inl ⟨rfl, rfl⟩, by decide⟩

theorem witness_FmtConvertKeepsTopBytes :
    8 ≤ (testIdle []).sizes.nMax ∧ DepthBytes 24 3 ∧ DepthBytes 16 2 :=
  ⟨by decide, .inr ⟨rfl, rfl⟩, .inl ⟨rfl, rfl⟩⟩

theorem witness_FmtConvertErrorAndNoOp :
    (testIdle []).sizes.nMax < 9 ∧ 8 ≤ (testIdle []).sizes.nMax ∧ (20 : Nat) ≠ 16 ∧ (20 : Nat) ≠ 24 := by decide

theorem witness_PushStoresSwappedBlock :
    Inv (testRing blockF1 3 [.blockReady wireF1]) ∧
      (testRing blockF1 3 [.blockReady wireF1]).inbox = .blockReady wireF1 :: [] ∧
      (testRing blockF1 3 [.blockReady wireF1]).ringReady = true ∧
      wireF1.length = (testRing blockF1 3 [.blockReady wireF1]).blen :=
  ⟨testRing_inv 3 (by decide) _, rfl, rfl, by decide⟩

theorem witness_PushBeforeInitIsDropped :
    (testIdle [.blockReady []]).inbox = .blockReady [] :: [] ∧ (testIdle [.blockReady []]).ringReady = false := by decide

theorem witness_PushOfWrongLengthIsRefused :
    (testRing blockF1 1 [.blockReady [0#8]]).inbox = .blockReady [0#8] :: [] ∧
      (testRing blockF1 1 [.blockReady [0#8]]).ringReady = true ∧
      [0#8].length ≠ (testRing blockF1 1 [.blockReady [0#8]]).blen := by decide

/-- A push at the largest count below saturation, a consume that returns a slot, and an event that is neither. -/
theorem witness_CountMovesByOnePerPushAndConsume :
    (∃ t, step (testRing blockF1 2 [.blockReady wireF1]) = .next t ∧ IsPush (.blockReady wireF1) ∧
      (testRing blockF1 2 [.blockReady wireF1]).ringReady = true ∧
      (testRing blockF1 2 [.blockReady wireF1]).count < 2 ^ (testRing blockF1 2 []).sizes.cntW - 1) ∧
    (∃ t, step (testRing blockF1 1 [.hostWrite 0x0#32 .word 0x3#32]) = .next t ∧
      Commands (.hostWrite 0x0#32 .word 0x3#32) .ringConsume ∧ (testRing blockF1 1 []).ringReady = true ∧
      (testRing blockF1 1 []).count ≠ 0) ∧
    (∃ t, step (testRing blockF1 1 [.reset]) = .next t ∧ ¬ IsPush .reset ∧ ¬ Commands .reset .ringConsume) :=
  ⟨⟨_, rfl, ⟨_, rfl⟩, by decide, by decide⟩, ⟨_, rfl, ⟨_, rfl, by decide⟩, by decide, by decide⟩,
    ⟨_, rfl, (by rintro ⟨_, h⟩; cases h), (by rintro ⟨_, h, _⟩; cases h)⟩⟩

/-- A push at the largest count below saturation, and a RING_INIT that succeeds. -/
theorem witness_CursorRelationKeptBelowSaturation :
    (∃ t, Inv (testRing blockF1 2 [.blockReady wireF1]) ∧ step (testRing blockF1 2 [.blockReady wireF1]) = .next t ∧
      (testRing blockF1 2 [.blockReady wireF1]).ringReady = true ∧ CursorsAgree (testRing blockF1 2 []) ∧
      ¬(IsPush (.blockReady wireF1) ∧ (testRing blockF1 2 []).count = 2 ^ (testRing blockF1 2 []).sizes.cntW - 1) ∧
      t.ringReady = true) ∧
    (∃ t, Inv (testIdle [.hostWrite 0x0#32 .word 0x00030021#32]) ∧
      step (testIdle [.hostWrite 0x0#32 .word 0x00030021#32]) = .next t ∧
      Commands (.hostWrite 0x0#32 .word 0x00030021#32) (.ringInit 2 3) ∧ t.result = 0#32) :=
  ⟨⟨_, testRing_inv 2 (by decide) _, rfl, rfl, rfl, fun h => absurd h.2 (by decide), rfl⟩,
    ⟨_, testIdle_inv _, rfl, ⟨_, rfl, by decide⟩, rfl⟩⟩

/-- One block in a ring of two slots; after its RING_CONSUME a push and a consume come before the push that writes its
slot again. -/
theorem witness_ClaimedSlotIsOverwrittenSilently :
    ∃ t, Inv (testRing blockF1 1 []) ∧ (testRing blockF1 1 []).ringReady = true ∧ CursorsAgree (testRing blockF1 1 []) ∧
      (testRing blockF1 1 []).count ≠ 0 ∧ (testRing blockF1 1 []).count - 1 < (testRing blockF1 1 []).k ∧
      exec .ringConsume (testRing blockF1 1 []) = .next t ∧
      (∀ e ∈ [Event.blockReady wireF1, .hostWrite 0x0#32 .word 0x3#32],
        Commands e .ringConsume ∨ ∃ raw, e = .blockReady raw ∧ raw.length = (testRing blockF1 1 []).blen) ∧
      pushCount [Event.blockReady wireF1, .hostWrite 0x0#32 .word 0x3#32] + 1 = (testRing blockF1 1 []).k - t.count ∧
      wireF1.length = (testRing blockF1 1 []).blen := by
  refine ⟨_, testRing_inv 1 (by decide) [], rfl, rfl, by decide, by decide, rfl, ?_, by decide, by decide⟩
  intro e he
  simp only [List.mem_cons, List.not_mem_nil, or_false] at he
  rcases he with rfl | rfl
  · exact .inr ⟨wireF1, rfl, by decide⟩
  · exact .inl ⟨0x3#32, rfl, by decide⟩

/-- Accumulators that a 64-bit wrap moves and does not move, and the ends of the range where no wrap acts. -/
theorem witness_FirReduceWrapsAndFloorsEveryAccumulator :
    (-(2 ^ 63) ≤ (-(2 ^ 63) : Int) ∧ (-(2 ^ 63) : Int) < 2 ^ 63 ∧ (2 ^ 64 : Int) ∣ 2 ^ 63 - -(2 ^ 63)) ∧
      (-(2 ^ 63) ≤ (2 ^ 63 - 1 : Int) ∧ (2 ^ 63 - 1 : Int) < 2 ^ 63 ∧
        (2 ^ 64 : Int) ∣ (2 ^ 63 - 1) - (2 ^ 63 - 1)) ∧
      (-(2 ^ 62) ≤ (-(2 ^ 62) : Int) ∧ (-(2 ^ 62) : Int) < 2 ^ 62) ∧
      (-(2 ^ 62) ≤ (2 ^ 62 - 1 : Int) ∧ (2 ^ 62 - 1 : Int) < 2 ^ 62) := by decide

/-- A 3:1 stage on four inputs: output 0 exists and its last tap reaches the history when T is 4. A 2:1 stage on one input:
no output, and the history keeps one of its old samples. -/
theorem witness_StageOutputsAndHistoryAreTheFirOfTheInput :
    (⟨.three, ⟨1#32, [2#32, 3#32, 4#32]⟩, [7#32, 8#32, 9#32]⟩ : Stage).history.length = 3 ∧
      ((Factor.three = .two ∧ (3 : Nat) = 2) ∨ (Factor.three = .three ∧ (3 : Nat) = 3)) ∧
      0 < [1#32, 2#32, 3#32, 4#32].length / 3 ∧
      (⟨.two, testTaps, [7#32, 8#32]⟩ : Stage).history.length = testTaps.rest.length ∧
      ((Factor.two = .two ∧ (2 : Nat) = 2) ∨ (Factor.two = .three ∧ (2 : Nat) = 3)) ∧
      0 < testTaps.rest.length ∧ 0 + [1#32].length < testTaps.rest.length ∧
      ¬ 1 + [1#32].length < testTaps.rest.length := by decide

theorem witness_CascadeRunsItsStagesInOrder :
    (CascadeRate.div2, 1) ∈ [(CascadeRate.div2, 1), (.div4, 2), (.div8, 3), (.div12, 3), (.div16, 4), (.div24, 4)] ∧
      (CascadeRate.div24, 4) ∈ [(CascadeRate.div2, 1), (.div4, 2), (.div8, 3), (.div12, 3), (.div16, 4), (.div24, 4)] ∧
      3 < 4 ∧ 3 = testFilter.pos3Div24.val := by decide

theorem witness_FieldPlacesOfDownsampleAndConvert :
    (127 < 2 ^ 7 ∧ 31 < 2 ^ 5 ∧ 65535 < 2 ^ 16) ∧ (31 < 2 ^ 5 ∧ 65535 < 2 ^ 16) := by decide

theorem witness_StageContinuity :
    (⟨.three, testTaps, [1#32, 2#32]⟩ : Stage).history.length = testTaps.rest.length ∧
      [1#32, 2#32, 3#32].length % factorValue .three = 0 := by decide

theorem witness_CascadeContinuity :
    HistoriesFit testFilter.coef (zeroHistories testFilter.coef) ∧ (List.replicate 24 1#32).length % divisor .div24 = 0 :=
  ⟨zeroHistories_fit _, by decide⟩

theorem witness_SwitchingLaw : Inv (testRing blockF1 1 []) ∧ RateCode.div2 ≠ RateCode.div4 :=
  ⟨testRing_inv 1 (by decide) [], by decide⟩

/-- The other slot's bytes, the cursors, COUNT and OVR differ. -/
theorem witness_DownsampleReadsOnlyItsSlot :
    ∃ t, (∀ a, a < (testRing blockF1 1 []).blen →
        State.byteAt { testRing blockF1 1 [] with ringMem := Memory.cells 0 blockF1 ++ [(24, 7#8)] } .ring
          (0 * (3 * (testRing blockF1 1 []).sizes.nMax) + a) =
        (testRing blockF1 1 []).byteAt .ring (0 * (3 * (testRing blockF1 1 []).sizes.nMax) + a)) ∧
      exec (.fbDownsample 0 24 12) (testRing blockF1 1 []) = .next t := by
  refine ⟨_, ?_, rfl⟩
  decide

/-- Each clause: a narrow access, a misaligned one, the first address past a window, and a write to a read-only register
and to the last word of a read-only window. -/
theorem witness_BusErrorsChangeOnlyEBus :
    (testIdle [.hostRead 0x8#32 .half]).inbox = .hostRead 0x8#32 .half :: [] ∧ AccessSize.half ≠ .word ∧
      (0x2#32).toNat % 4 ≠ 0 ∧ ¬ Mapped (testIdle []).sizes (0x18#32).toNat ∧
      ¬ Mapped (testIdle []).sizes (0x10018#32).toNat ∧ (testIdle []).sizes.Valid ∧
      (testIdle [.hostWrite 0x4#32 .word 1#32]).inbox = .hostWrite 0x4#32 .word 1#32 :: [] ∧
      (0x4#32).toNat ∈ [0x4, 0xC, 0x10, 0x14] ∧ InWindow (testIdle []).sizes .out 0x10000 (0x10014#32).toNat ∧
      InWindow (testIdle []).sizes .ring 0x100000 (0x10002C#32).toNat := by
  refine ⟨rfl, by decide, by decide, ?_, ?_, testSizes_valid, rfl, by decide, ?_, ?_⟩
  all_goals simp [Mapped, InWindow, testIdle, State.afterReset, spaceSize, testSizes, Sizes.slotStride]

theorem witness_RegisterReads :
    ∀ a ∈ [0x4#32, 0x8#32, 0xC#32, 0x10#32, 0x14#32], Inv (testIdle [.hostRead a .word]) ∧
      (testIdle [.hostRead a .word]).inbox = .hostRead a .word :: [] ∧ a.toNat ∈ [0x4, 0x8, 0xC, 0x10, 0x14] := by
  intro a ha
  refine ⟨testIdle_inv _, rfl, ?_⟩
  simp only [List.mem_cons, List.not_mem_nil, or_false] at ha
  rcases ha with rfl | rfl | rfl | rfl | rfl <;> decide

/-- The first and the last word of each window. -/
theorem witness_WindowReadsAreLittleEndian :
    (testIdle []).sizes.Valid ∧
      (testIdle [.hostRead 0x10014#32 .word]).inbox = .hostRead 0x10014#32 .word :: [] ∧ (0x10014#32).toNat % 4 = 0 ∧
      InWindow (testIdle []).sizes .out 0x10000 (0x10000#32).toNat ∧
      InWindow (testIdle []).sizes .out 0x10000 (0x10014#32).toNat ∧
      InWindow (testIdle []).sizes .fxp 0x20000 (0x20000#32).toNat ∧
      InWindow (testIdle []).sizes .fxp 0x20000 (0x2001C#32).toNat ∧
      InWindow (testIdle []).sizes .ring 0x100000 (0x100000#32).toNat ∧
      InWindow (testIdle []).sizes .ring 0x100000 (0x10002C#32).toNat := by
  refine ⟨testSizes_valid, rfl, by decide, ?_, ?_, ?_, ?_, ?_, ?_⟩
  all_goals
    simp only [InWindow]
    decide

/-- The last word of the window, with nothing pending after the write and with a read of the same address. -/
theorem witness_FxpWriteStoresAndReadsBack :
    (testIdle []).sizes.Valid ∧
      (testIdle [.hostWrite 0x2001C#32 .word 1#32]).inbox = .hostWrite 0x2001C#32 .word 1#32 :: [] ∧
      (testIdle [.hostWrite 0x2001C#32 .word 0x12345678#32, .hostRead 0x2001C#32 .word]).inbox =
        .hostWrite 0x2001C#32 .word 0x12345678#32 :: .hostRead 0x2001C#32 .word :: [] ∧
      (0x2001C#32).toNat % 4 = 0 ∧ InWindow (testIdle []).sizes .fxp 0x20000 (0x2001C#32).toNat := by
  refine ⟨testSizes_valid, rfl, rfl, by decide, ?_⟩
  simp only [InWindow]
  decide

theorem witness_StatusWriteClearsOnes :
    (testIdle [.hostWrite 0x8#32 .word 0x7F00#32]).inbox = .hostWrite 0x8#32 .word 0x7F00#32 :: [] := by decide

/-- The lowest error bit through a command, and the highest cleared by a STATUS write. -/
theorem witness_ErrorBitsAreSticky :
    (∃ t, exec .nop { testIdle [] with errors := 1#7 } = .next t ∧
      ({ testIdle [] with errors := 1#7 } : State).errors.getLsbD 0 = true) ∧
    (∃ t, step { testIdle [.hostWrite 0x8#32 .word 0x4000#32] with errors := 0b1000000#7 } = .next t ∧
      ({ testIdle [.hostWrite 0x8#32 .word 0x4000#32] with errors := 0b1000000#7 } : State).errors.getLsbD 6 = true ∧
      t.errors.getLsbD 6 = false) :=
  ⟨⟨_, rfl, by decide⟩, ⟨_, rfl, by decide, by decide⟩⟩

theorem witness_ErrorsArePrecise :
    ∃ t, Inv (testIdle []) ∧ exec .ringConsume (testIdle []) = .next t ∧
      (t.result = 0xFFFFFFFF#32 ∨ t.errors ≠ (testIdle []).errors) :=
  ⟨_, testIdle_inv [], rfl, .inl rfl⟩

theorem witness_OverrunFlagWriters :
    (∃ t, step { testRing blockF1 3 [.hostWrite 0x0#32 .word 0x5#32] with ovr := true } = .next t ∧
      ({ testRing blockF1 3 [.hostWrite 0x0#32 .word 0x5#32] with ovr := true } : State).ovr = true ∧ t.ovr = false) ∧
    (∃ t, step (testRing blockF1 2 [.blockReady wireF1]) = .next t ∧
      (testRing blockF1 2 [.blockReady wireF1]).ovr = false ∧ t.ovr = true) :=
  ⟨⟨_, rfl, rfl, rfl⟩, ⟨_, rfl, rfl, rfl⟩⟩

theorem witness_ReadinessFallsOnlyAtReset :
    (∃ t, step (testRing blockF1 1 [.reset]) = .next t ∧ (testRing blockF1 1 [.reset]).ringReady = true ∧
      t.ringReady = false) ∧
    (∃ t, exec (.ringInit 2 24) (testRing blockF1 1 []) = .next t) ∧ ∃ t, exec .fbInit (testRing blockF1 1 []) = .next t :=
  ⟨⟨_, rfl, rfl, rfl⟩, ⟨_, rfl⟩, ⟨_, rfl⟩⟩

/-- A push, an FMT_CONVERT and an FXP write that each change a memory. -/
theorem witness_EachMemoryHasItsWriters :
    (∃ t, step (testRing [] 0 [.blockReady wireF1]) = .next t ∧ Event.blockReady wireF1 ≠ .reset ∧
      t.ringMem ≠ (testRing [] 0 []).ringMem) ∧
    (∃ t, step (testRing blockF1 1 [.hostWrite 0x0#32 .word 0x000CC008#32]) = .next t ∧
      t.outMem ≠ (testRing blockF1 1 []).outMem) ∧
    (∃ t, step (testIdle [.hostWrite 0x20000#32 .word 1#32]) = .next t ∧ t.fxpIn ≠ (testIdle []).fxpIn) := by
  refine ⟨⟨_, rfl, by decide, ?_⟩, ⟨_, rfl, ?_⟩, ⟨_, rfl, ?_⟩⟩
  all_goals exact List.cons_ne_nil _ _

/-- FB_INIT on a bank that is not ready, and FB_SET_TARGET. -/
theorem witness_FilterStateHasItsWriters :
    (∃ t, step { testIdle [.hostWrite 0x0#32 .word 0x6#32] with
          hist := bankMap (fun _ _ _ => [1#32, 1#32]) testFilter.coef } = .next t ∧
      t.hist ≠ bankMap (fun _ _ _ => [1#32, 1#32]) testFilter.coef ∧ t.fbReady ≠ false) ∧
    (∃ t, step (testIdle [.hostWrite 0x0#32 .word 0x47#32]) = .next t ∧ t.target ≠ (testIdle []).target) :=
  ⟨⟨_, rfl, by decide, by decide⟩, ⟨_, rfl, by decide⟩⟩

theorem witness_OnlyCommandsWriteResult :
    ∃ t, step (testIdle [.hostWrite 0x0#32 .word 0xF#32]) = .next t ∧ t.result ≠ (testIdle []).result :=
  ⟨_, rfl, by decide⟩

theorem witness_ParametersNeverChange : ∃ t, step (testRing blockF1 1 [.reset]) = .next t :=
  ⟨_, rfl⟩

theorem witness_StepKeepsInvariant :
    ∃ t, Inv (testRing blockF1 3 [.blockReady wireF1]) ∧ step (testRing blockF1 3 [.blockReady wireF1]) = .next t :=
  ⟨_, testRing_inv 3 (by decide) _, rfl⟩

theorem witness_GoodStatesAlwaysStep :
    Inv (testRing blockF1 3 [.blockReady wireF1]) ∧
      (∀ raw rest, (testRing blockF1 3 [.blockReady wireF1]).inbox = .blockReady raw :: rest →
        (testRing blockF1 3 [.blockReady wireF1]).ringReady = true →
        raw.length = (testRing blockF1 3 [.blockReady wireF1]).blen) := by
  refine ⟨testRing_inv 3 (by decide) _, fun raw rest h _ => ?_⟩
  have h' : [Event.blockReady wireF1] = .blockReady raw :: rest := h
  injection h' with h1 _
  injection h1 with h1
  rw [← h1]
  decide

end Sys2Proof.Tests
end

section
/-! PROOFS. The parameters are constants (00_scope.md R9, R10, 10_state.md R34, R38): what each transaction keeps of them. -/

namespace Sys2Proof.Proofs

open Sys2Proof.Machine Sys2Proof.Laws

/-- `t` has the parameters of `s`: the sizes of R9 and the filter parameters of R10. -/
structure SameParameters (s t : State) : Prop where
  sizes : t.sizes = s.sizes
  filter : t.filter = s.filter

/-- PARAM shows nothing but the sizes (10_state.md R34). -/
theorem SameParameters.paramWord {s t : State} (h : SameParameters s t) : t.paramWord = s.paramWord := by
  simp only [State.paramWord, h.sizes]

theorem sameParameters_raise (s : State) (e : ErrorCause) : SameParameters s (s.raise e) := ⟨rfl, rfl⟩

theorem sameParameters_setError (s : State) (e : ErrorCause) : SameParameters s (s.setError e) := ⟨rfl, rfl⟩

/-- Every command keeps the parameters, an error and a no-op included: each outcome is the old state with other fields
written. -/
theorem exec_keeps_parameters {i : Instr} {s t : State} (h : exec i s = .next t) : SameParameters s t := by
  obtain ⟨e, rfl⟩ | ⟨v, rfl⟩ | ⟨cap, blen, -, -, -, rfl⟩ | ⟨-, -, -, rfl⟩ | ⟨-, -, rfl⟩ | ⟨-, rfl⟩ | ⟨rate, -, rfl⟩ |
    ⟨bytes, -, ⟨-, rfl⟩ | ⟨-, rfl | ⟨r, x, rfl⟩⟩⟩ := exec_next h
  all_goals exact ⟨rfl, rfl⟩

theorem runCommand_keeps_parameters {c : Word} {s t : State} (h : runCommand c s = .next t) : SameParameters s t := by
  obtain ⟨i, -, hexec⟩ | ⟨_, -, rfl⟩ := runCommand_next h
  · exact exec_keeps_parameters hexec
  · exact sameParameters_raise s .illegal

/-- A host write reaches a command, the error bits or FXP; a write to PARAM is a bus error (20_memory.md R68). -/
theorem hostWrite_keeps_parameters {addr : Word} {size : AccessSize} {value : Word} {s t : State}
    (h : hostWrite addr size value s = .next t) : SameParameters s t := by
  obtain ⟨-, hcmd⟩ | ⟨-, rfl⟩ | ⟨offset, -, rfl⟩ | rfl := hostWrite_next h
  · exact runCommand_keeps_parameters hcmd
  · exact ⟨clearErrors_sizes s value, clearErrors_filter s value⟩
  · exact ⟨memWrite_sizes .., memWrite_filter ..⟩
  · exact sameParameters_setError s .bus

theorem hostRead_keeps_parameters {addr : Word} {size : AccessSize} {s t : State}
    (h : hostRead addr size s = .next t) : SameParameters s t := by
  obtain ⟨target, -, rfl⟩ | ⟨-, rfl⟩ := hostRead_next h
  · exact ⟨rfl, rfl⟩
  · exact ⟨setError_sizes s .bus, setError_filter s .bus⟩

theorem blockReady_keeps_parameters {raw : List Byte} {s t : State} (h : blockReady raw s = .next t) :
    SameParameters s t := by
  obtain ⟨-, rfl⟩ | ⟨-, -, -, rfl⟩ := blockReady_next h
  · exact sameParameters_setError s .pushDrop
  · exact ⟨by simp, by simp⟩

/-- Every transaction keeps the parameters; hardware reset is no exception (70_reset_and_hazards.md R230). -/
theorem applyEvent_keeps_parameters {e : Event} {s t : State} (h : applyEvent e s = .next t) : SameParameters s t := by
  cases e with
  | hostRead addr size => exact hostRead_keeps_parameters h
  | hostWrite addr size value => exact hostWrite_keeps_parameters h
  | blockReady raw => exact blockReady_keeps_parameters h
  | reset =>
    obtain rfl : s.hardwareReset = t := by injection h
    exact ⟨hardwareReset_sizes s, hardwareReset_filter s⟩

theorem step_keeps_parameters {s t : State} (h : step s = .next t) : SameParameters s t := by
  obtain ⟨-, rfl⟩ | ⟨e, rest, -, hevent⟩ := step_next h
  · exact ⟨rfl, rfl⟩
  · -- Taking the event off the list of pending ones touches no parameter.
    obtain ⟨hsizes, hfilter⟩ := applyEvent_keeps_parameters hevent
    exact ⟨hsizes, hfilter⟩

/-- Settles O48: no step changes the sizes or the filter parameters, and PARAM is a function of the sizes. -/
theorem parametersNeverChange : Obligations.ParametersNeverChange := by
  unfold Obligations.ParametersNeverChange
  intro s t h
  have hsame := step_keeps_parameters h
  exact ⟨hsame.sizes, hsame.filter, hsame.paramWord⟩

end Sys2Proof.Proofs
end

section
/-! PROOFS. What a command and a transaction can do, case by case: one inversion of a step through the bus and the decoder
(20_memory.md R60 to R68, 10_state.md R35), from which the rules about every step follow. -/

namespace Sys2Proof.Proofs

open Sys2Proof.Machine Sys2Proof.Safety Sys2Proof.Laws

/-- `CommandOutcome s i t`: command `i`, executed in state `s`, leaves state `t`. The cases of `exec_next` by name;
`exec_outcome` says that there is no other. -/
inductive CommandOutcome (s : State) : Instr → State → Prop where
  /-- 60_exceptions.md R203. -/
  | raised (i : Instr) (e : ErrorCause) : CommandOutcome s i (s.raise e)
  /-- A value, or the 0 of a no-op, in RESULT and nothing else (00_scope.md R15). -/
  | returned (i : Instr) (v : Nat) : CommandOutcome s i (s.ret v)
  /-- 40_ring.md R112. -/
  | ringInit {cap blen : Nat} (hcap : capacityOk s.sizes cap = true) (hblen : blockLengthOk s.sizes blen = true) :
      CommandOutcome s (.ringInit cap blen) (State.ret
        { s with k := cap, blen := blen, wr := 0, rd := 0, count := 0, ovr := false, ringReady := true } 0)
  /-- 40_ring.md R121. -/
  | ringConsume (hready : s.ringReady = true) (hcount : s.count ≠ 0) :
      CommandOutcome s .ringConsume (State.ret { s with rd := (s.rd + 1) % s.k, count := s.count - 1 } s.rd)
  /-- 40_ring.md R125. -/
  | ringOvrClear (hready : s.ringReady = true) :
      CommandOutcome s .ringOvrClear (State.ret { s with ovr := false } 0)
  /-- 41_filter_bank.md R160. -/
  | fbInit :
      CommandOutcome s .fbInit (State.ret { s with hist := zeroHistories s.filter.coef, fbReady := true } 0)
  /-- 41_filter_bank.md R162. -/
  | fbSetTarget (rate : RateCode) : CommandOutcome s (.fbSetTarget rate) (State.ret { s with target := rate } 0)
  /-- 42_format.md R186. -/
  | fmtConvert (depth count : Nat) {bytes : List Byte} (hfit : bytes.length ≤ 3 * s.sizes.nMax) :
      CommandOutcome s (.fmtConvert depth count) ((s.store .out 0 bytes).ret bytes.length)
  /-- 41_filter_bank.md R168, the native rate. -/
  | downsampleNative (slot depth rawlen : Nat) {bytes : List Byte} (hfit : bytes.length ≤ 3 * s.sizes.nMax) :
      CommandOutcome s (.fbDownsample slot depth rawlen) ((s.store .out 0 bytes).ret bytes.length)
  /-- 41_filter_bank.md R166, through a cascade. -/
  | downsampleCascade (slot depth rawlen : Nat) {bytes : List Byte} (hfit : bytes.length ≤ 3 * s.sizes.nMax)
      (r : CascadeRate) (x : List Sample) :
      CommandOutcome s (.fbDownsample slot depth rawlen) (((s.runCascade r x).store .out 0 bytes).ret bytes.length)

/-- A command that completes does so in one of the ways of `CommandOutcome`. -/
theorem exec_outcome {i : Instr} {s t : State} (h : exec i s = .next t) : CommandOutcome s i t := by
  obtain ⟨e, rfl⟩ | ⟨v, rfl⟩ | ⟨cap, blen, rfl, hcap, hblen, rfl⟩ | ⟨rfl, hready, hcount, rfl⟩ | ⟨rfl, hready, rfl⟩ |
    ⟨rfl, rfl⟩ | ⟨rate, rfl, rfl⟩ | ⟨bytes, hfit, ⟨⟨depth, count, rfl⟩, rfl⟩ |
      ⟨⟨slot, depth, rawlen, rfl⟩, rfl | ⟨r, x, rfl⟩⟩⟩ := exec_next h
  · exact .raised i e
  · exact .returned i v
  · exact .ringInit hcap hblen
  · exact .ringConsume hready hcount
  · exact .ringOvrClear hready
  · exact .fbInit
  · exact .fbSetTarget rate
  · exact .fmtConvert depth count hfit
  · exact .downsampleNative slot depth rawlen hfit
  · exact .downsampleCascade slot depth rawlen hfit r x

/-- `EventOutcome s e t`: event `e`, taking effect in state `s`, leaves state `t`. `applyEvent_outcome` says that a
transaction completes in no other way. -/
inductive EventOutcome (s : State) : Event → State → Prop where
  /-- 10_state.md R35. -/
  | command {c : Word} {i : Instr} {t : State} (hdecode : decode c = .ok i) (hexec : exec i s = .next t) :
      EventOutcome s (.hostWrite 0x0#32 .word c) t
  /-- 30_encoding.md R100. -/
  | illegalWord {c : Word} {w : IllegalWord} (hdecode : decode c = .error w) :
      EventOutcome s (.hostWrite 0x0#32 .word c) (s.raise .illegal)
  /-- 10_state.md R31. -/
  | statusWrite (v : Word) : EventOutcome s (.hostWrite 0x8#32 .word v) (s.clearErrors v)
  /-- 20_memory.md R65. -/
  | fxpWrite {addr : Word} (v : Word) {offset : Nat} (htarget : s.busTarget? addr .word = some (.fxpWindow offset)) :
      EventOutcome s (.hostWrite addr .word v) (s.memWrite .fxp offset 4 v.toNat)
  /-- 20_memory.md R68. -/
  | writeError (addr : Word) (size : AccessSize) (v : Word) :
      EventOutcome s (.hostWrite addr size v) (s.setError .bus)
  /-- 20_memory.md R64. -/
  | read {addr : Word} {size : AccessSize} {target : BusTarget} (htarget : s.busTarget? addr size = some target) :
      EventOutcome s (.hostRead addr size) { s with readData := s.busRead target }
  /-- 20_memory.md R68. -/
  | readError {addr : Word} {size : AccessSize} (htarget : s.busTarget? addr size = none) :
      EventOutcome s (.hostRead addr size) { s.setError .bus with readData := 0#32 }
  /-- 40_ring.md R117, the ring not ready. -/
  | droppedPush (raw : List Byte) (hidle : s.ringReady = false) :
      EventOutcome s (.blockReady raw) (s.setError .pushDrop)
  /-- 40_ring.md R117. -/
  | push (raw : List Byte) (hready : s.ringReady = true) (hlen : raw.length = s.blen)
      (hin : slotBase s.sizes s.wr + s.blen ≤ spaceSize s.sizes .ring) :
      EventOutcome s (.blockReady raw) (s.store .ring (slotBase s.sizes s.wr) (swapSamples raw)).afterPush
  /-- 70_reset_and_hazards.md R230. -/
  | reset : EventOutcome s .reset s.hardwareReset

theorem hostWrite_outcome {addr : Word} {size : AccessSize} {v : Word} {s t : State}
    (h : hostWrite addr size v s = .next t) : EventOutcome s (.hostWrite addr size v) t := by
  obtain ⟨htarget, hrun⟩ | ⟨htarget, rfl⟩ | ⟨offset, htarget, rfl⟩ | rfl := hostWrite_next h
  · obtain ⟨rfl, rfl⟩ := busTarget_cmd htarget
    obtain ⟨i, hdecode, hexec⟩ | ⟨_, hdecode, rfl⟩ := runCommand_next hrun
    · exact .command hdecode hexec
    · exact .illegalWord hdecode
  · obtain ⟨rfl, rfl⟩ := busTarget_status htarget
    exact .statusWrite v
  · obtain ⟨rfl, -⟩ := busTarget_fxp htarget
    exact .fxpWrite v htarget
  · exact .writeError addr size v

theorem hostRead_outcome {addr : Word} {size : AccessSize} {s t : State} (h : hostRead addr size s = .next t) :
    EventOutcome s (.hostRead addr size) t := by
  obtain ⟨target, htarget, rfl⟩ | ⟨htarget, rfl⟩ := hostRead_next h
  · exact .read htarget
  · exact .readError htarget

theorem blockReady_outcome {raw : List Byte} {s t : State} (h : blockReady raw s = .next t) :
    EventOutcome s (.blockReady raw) t := by
  obtain ⟨hidle, rfl⟩ | ⟨hready, hlen, hin, rfl⟩ := blockReady_next h
  · exact .droppedPush raw hidle
  · exact .push raw hready hlen hin

/-- A transaction that completes does so in one of the ways of `EventOutcome`. -/
theorem applyEvent_outcome {e : Event} {s t : State} (h : applyEvent e s = .next t) : EventOutcome s e t := by
  cases e with
  | hostRead addr size => exact hostRead_outcome h
  | hostWrite addr size v => exact hostWrite_outcome h
  | blockReady raw => exact blockReady_outcome h
  | reset =>
    obtain rfl : s.hardwareReset = t := by injection h
    exact .reset

/-- A step with `e` pending is an outcome of `e` in the state that has `e` taken off the list. -/
theorem step_outcome {s t : State} {e : Event} {rest : List Event} (hinbox : s.inbox = e :: rest)
    (hstep : step s = .next t) : EventOutcome { s with inbox := rest } e t :=
  applyEvent_outcome (step_cons hinbox ▸ hstep)

/-- A legal word written to CMD runs the command it encodes (10_state.md R35). -/
theorem step_command {s : State} {c : Word} {rest : List Event} {i : Instr}
    (hinbox : s.inbox = .hostWrite 0x0#32 .word c :: rest) (hdecode : decode c = .ok i) :
    step s = exec i { s with inbox := rest } := by
  simp only [step_cons hinbox, applyEvent, hostWrite, busTarget_zero, runCommand, hdecode]

end Sys2Proof.Proofs
end

section
/-! PROOFS. The invariant of a good state (10_state.md R22 to R27, R39, R45, 20_memory.md R62): the state after reset has
it, and every transaction keeps it. -/

namespace Sys2Proof.Proofs

open Sys2Proof.Machine Sys2Proof.Safety Sys2Proof.Laws

/-! The state after reset. -/

/-- The state after reset of a machine with legal sizes: an idle ring, nothing written, free histories of the right
lengths (10_state.md R22). -/
theorem inv_afterReset {sizes : Sizes} (hsizes : sizes.Valid) (filter : FilterParams) (resets : Nat) :
    Inv (State.afterReset sizes filter resets) where
  sizes := hsizes
  ready := nofun
  idle _ := ⟨rfl, rfl, rfl, rfl, rfl, rfl⟩
  canonical sp := by cases sp <;> exact List.Pairwise.nil
  bounded sp := by cases sp <;> exact nofun
  histories := unwrittenHistories_fit resets filter.coef

theorem defaultSizes_valid : Config.defaultSizes.Valid := by
  constructor <;> decide

/-- Settles O50: R9's defaults are legal, and the reset state of any legal sizes is good. -/
theorem resetMeetsInvariant : Obligations.ResetMeetsInvariant := by
  unfold Obligations.ResetMeetsInvariant
  exact inv_afterReset defaultSizes_valid configFilter 0

/-! Updates that leave the ring registers and the memories alone. -/

/-- The invariant says nothing of RESULT, STATUS's error bits, TARGET and the value last read. -/
theorem inv_control {s : State} (h : Inv s) (result : Word) (errors : BitVec 7) (target : RateCode) (readData : Word) :
    Inv { s with result := result, errors := errors, target := target, readData := readData } :=
  inv_of_same h rfl rfl rfl rfl rfl rfl rfl rfl rfl (fun sp => by cases sp <;> rfl) h.histories

theorem inv_ret {s : State} (h : Inv s) (v : Nat) : Inv (s.ret v) :=
  inv_control h (BitVec.ofNat 32 v) s.errors s.target s.readData

theorem inv_setError {s : State} (h : Inv s) (e : ErrorCause) : Inv (s.setError e) :=
  inv_control h s.result (withError s.errors e) s.target s.readData

theorem inv_raise {s : State} (h : Inv s) (e : ErrorCause) : Inv (s.raise e) :=
  inv_control h errResult (withError s.errors e) s.target s.readData

theorem inv_clearErrors {s : State} (h : Inv s) (v : Word) : Inv (s.clearErrors v) :=
  inv_control h s.result (clearedBy s.errors v) s.target s.readData

theorem inv_readData {s : State} (h : Inv s) (w : Word) : Inv { s with readData := w } :=
  inv_control h s.result s.errors s.target w

theorem inv_target {s : State} (h : Inv s) (rate : RateCode) : Inv { s with target := rate } :=
  inv_control h s.result s.errors rate s.readData

/-- Histories may be replaced by others of the same lengths (10_state.md R39). -/
theorem inv_histories {s : State} (h : Inv s) {hist : Bank (List Sample)} (hfit : HistoriesFit s.filter.coef hist)
    (fbReady : Bool) : Inv { s with hist := hist, fbReady := fbReady } :=
  inv_of_same h rfl rfl rfl rfl rfl rfl rfl rfl rfl (fun sp => by cases sp <;> rfl) hfit

/-- FB_INIT's zeros have the lengths of the histories they replace (41_filter_bank.md R146, R160). -/
theorem inv_zeroHistories {s : State} (h : Inv s) :
    Inv { s with hist := zeroHistories s.filter.coef, fbReady := true } :=
  inv_histories h (zeroHistories_fit s.filter.coef) true

theorem inv_runCascade {s : State} (h : Inv s) (r : CascadeRate) (x : List Sample) : Inv (s.runCascade r x) :=
  inv_histories h (runCascade_fit h.histories r x) s.fbReady

/-- Output bytes that fit OUT, and their number in RESULT (42_format.md R184). -/
theorem inv_outputBytes {s : State} (h : Inv s) {bytes : List Byte} (hfit : bytes.length ≤ 3 * s.sizes.nMax) :
    Inv ((s.store .out 0 bytes).ret bytes.length) :=
  inv_ret (inv_store h .out 0 bytes (by simpa [spaceSize] using hfit)) _

/-! Updates of the ring registers. -/

/-- A ready ring in its ranges makes a state good that has the rest of a good one. -/
theorem inv_of_readyRing {s t : State} (h : Inv s) (hready : t.ringReady = true) (hring : ReadyRing t)
    (hsizes : t.sizes = s.sizes) (hfilter : t.filter = s.filter) (hmem : ∀ sp, t.mem sp = s.mem sp)
    (hhist : t.hist = s.hist) : Inv t where
  sizes := hsizes ▸ h.sizes
  ready _ := hring
  idle hidle := by simp [hready] at hidle
  canonical sp := hmem sp ▸ h.canonical sp
  bounded sp := by rw [hmem, hsizes]; exact h.bounded sp
  histories := by rw [hfilter, hhist]; exact h.histories

/-- RING_INIT's checks are the ranges of a ready ring (40_ring.md R112). -/
theorem inv_ringInit {s : State} (h : Inv s) {cap blen : Nat} (hcap : capacityOk s.sizes cap = true)
    (hblen : blockLengthOk s.sizes blen = true) :
    Inv { s with k := cap, blen := blen, wr := 0, rd := 0, count := 0, ovr := false, ringReady := true } := by
  simp only [capacityOk, Bool.and_eq_true, List.contains_iff_mem, decide_eq_true_eq] at hcap
  simp only [blockLengthOk, Bool.and_eq_true, decide_eq_true_eq] at hblen
  obtain ⟨hmem, hle⟩ := hcap
  obtain ⟨⟨hpos, hmult⟩, hfit⟩ := hblen
  have hcap_pos : 0 < cap := by
    rcases Nat.eq_zero_or_pos cap with rfl | hcap
    · simp at hmem
    · exact hcap
  exact inv_of_readyRing h rfl ⟨hmem, hle, hpos, hmult, hfit, hcap_pos, hcap_pos, Nat.zero_le _⟩ rfl rfl
    (fun sp => by cases sp <;> rfl) rfl

/-- RING_CONSUME moves RD on around the ring and takes one off COUNT (40_ring.md R121). -/
theorem inv_ringConsume {s : State} (h : Inv s) (hready : s.ringReady = true) :
    Inv { s with rd := (s.rd + 1) % s.k, count := s.count - 1 } := by
  obtain ⟨hk, hkle, hpos, hmult, hfit, hwr, hrd, hcount⟩ := h.ready hready
  exact inv_of_readyRing h hready
    ⟨hk, hkle, hpos, hmult, hfit, hwr, Nat.mod_lt _ (Nat.zero_lt_of_lt hrd), (Nat.sub_le _ _).trans hcount⟩ rfl rfl
    (fun sp => by cases sp <;> rfl) rfl

theorem inv_ringOvrClear {s : State} (h : Inv s) (hready : s.ringReady = true) : Inv { s with ovr := false } := by
  obtain ⟨hk, hkle, hpos, hmult, hfit, hwr, hrd, hcount⟩ := h.ready hready
  exact inv_of_readyRing h hready ⟨hk, hkle, hpos, hmult, hfit, hwr, hrd, hcount⟩ rfl rfl
    (fun sp => by cases sp <;> rfl) rfl

/-- COUNT saturates at `2^CNT_W - 1` (40_ring.md R119). -/
theorem countAfterPush_le {sizes : Sizes} {count : Nat} (h : count ≤ 2 ^ sizes.cntW - 1) :
    countAfterPush sizes count ≤ 2 ^ sizes.cntW - 1 := by
  unfold countAfterPush
  split
  · exact Nat.succ_le_of_lt ‹_›
  · exact h

/-- A push moves WR on around the ring and COUNT by at most one (40_ring.md R117). -/
theorem inv_afterPush {s : State} (h : Inv s) (hready : s.ringReady = true) : Inv s.afterPush := by
  obtain ⟨hk, hkle, hpos, hmult, hfit, hwr, hrd, hcount⟩ := h.ready hready
  exact inv_of_readyRing h hready
    ⟨hk, hkle, hpos, hmult, hfit, Nat.mod_lt _ (Nat.zero_lt_of_lt hwr), hrd, countAfterPush_le hcount⟩ rfl rfl
    (fun sp => by cases sp <;> rfl) rfl

/-- The whole of a push: the block, swapped, in its slot, and the cursors (40_ring.md R114, R117). -/
theorem inv_push {s : State} (h : Inv s) (hready : s.ringReady = true) {raw : List Byte} (hlen : raw.length = s.blen)
    (hin : slotBase s.sizes s.wr + s.blen ≤ spaceSize s.sizes .ring) :
    Inv (s.store .ring (slotBase s.sizes s.wr) (swapSamples raw)).afterPush := by
  have hwhole : raw.length % 3 = 0 := hlen ▸ (h.ready hready).blen_mult
  have hfit : slotBase s.sizes s.wr + (swapSamples raw).length ≤ spaceSize s.sizes .ring := by
    rwa [swapSamples_length hwhole, hlen]
  exact inv_afterPush (inv_store h .ring _ _ hfit) hready

/-! Commands, transactions, steps. -/

/-- Every command keeps a good state good. -/
theorem inv_exec {i : Instr} {s t : State} (h : Inv s) (hexec : exec i s = .next t) : Inv t := by
  cases exec_outcome hexec with
  | raised _ e => exact inv_raise h e
  | returned _ v => exact inv_ret h v
  | ringInit hcap hblen => exact inv_ret (inv_ringInit h hcap hblen) 0
  | ringConsume hready => exact inv_ret (inv_ringConsume h hready) s.rd
  | ringOvrClear hready => exact inv_ret (inv_ringOvrClear h hready) 0
  | fbInit => exact inv_ret (inv_zeroHistories h) 0
  | fbSetTarget rate => exact inv_ret (inv_target h rate) 0
  | fmtConvert _ _ hfit => exact inv_outputBytes h hfit
  | downsampleNative _ _ _ hfit => exact inv_outputBytes h hfit
  | downsampleCascade _ _ _ hfit r x => exact inv_outputBytes (inv_runCascade h r x) hfit

/-- An aligned access in the FXP window lies inside FXP, all four bytes of it: the size of FXP is a multiple of 4. -/
theorem busTarget_fxp_inSpace {s : State} {addr : Word} {size : AccessSize} {offset : Nat}
    (h : s.busTarget? addr size = some (.fxpWindow offset)) : offset + 4 ≤ spaceSize s.sizes .fxp := by
  obtain ⟨-, haligned, ⟨hlow, hhigh⟩, hoffset⟩ := busTarget_fxp h
  simp only [spaceSize] at hhigh ⊢
  omega

theorem inv_hardwareReset {s : State} (h : Inv s) : Inv s.hardwareReset :=
  inv_readData (inv_inbox (inv_afterReset h.sizes s.filter (s.resets + 1)) s.inbox) s.readData

/-- Every transaction keeps a good state good. -/
theorem inv_outcome {s t : State} {e : Event} (h : Inv s) (hout : EventOutcome s e t) : Inv t := by
  cases hout with
  | command _ hexec => exact inv_exec h hexec
  | illegalWord => exact inv_raise h .illegal
  | statusWrite v => exact inv_clearErrors h v
  | fxpWrite v htarget => exact inv_store h .fxp _ _ (by simpa using busTarget_fxp_inSpace htarget)
  | writeError => exact inv_setError h .bus
  | read => exact inv_readData h _
  | readError => exact inv_readData (inv_setError h .bus) 0#32
  | droppedPush => exact inv_setError h .pushDrop
  | push raw hready hlen hin => exact inv_push h hready hlen hin
  | reset => exact inv_hardwareReset h

/-- Settles O49: with nothing pending the state is the same; otherwise the transaction keeps the invariant. -/
theorem stepKeepsInvariant : Obligations.StepKeepsInvariant := by
  unfold Obligations.StepKeepsInvariant
  intro s t h hstep
  obtain ⟨-, rfl⟩ | ⟨e, rest, -, hevent⟩ := step_next hstep
  · exact h
  · exact inv_outcome (inv_inbox h rest) (applyEvent_outcome hevent)

end Sys2Proof.Proofs
end

section
/-! PROOFS. The cursor relation of the ring, WR = (RD + COUNT) mod K (10_state.md R44). -/

namespace Sys2Proof.Proofs

open Sys2Proof.Machine Sys2Proof.Safety Sys2Proof.Laws

/-- A ring just set up has both cursors at slot 0 and nothing to consume (40_ring.md R112). -/
theorem cursorsAgree_of_zero {s : State} (hwr : s.wr = 0) (hrd : s.rd = 0) (hcount : s.count = 0) : CursorsAgree s := by
  simp [CursorsAgree, hwr, hrd, hcount]

/-- RING_CONSUME moves one slot from COUNT to RD, so the sum stays (40_ring.md R121). -/
theorem cursorsAgree_ringConsume {s : State} (h : CursorsAgree s) (hcount : s.count ≠ 0) :
    CursorsAgree { s with rd := (s.rd + 1) % s.k, count := s.count - 1 } := by
  have hsum : s.rd + 1 + (s.count - 1) = s.rd + s.count := by omega
  simp only [CursorsAgree, Nat.mod_add_mod, hsum]
  exact h

/-- A push that COUNT has room for moves WR and COUNT on by one each (40_ring.md R117). -/
theorem cursorsAgree_afterPush {s : State} (h : CursorsAgree s) (hroom : s.count < 2 ^ s.sizes.cntW - 1) :
    CursorsAgree s.afterPush := by
  have hwr : s.wr = (s.rd + s.count) % s.k := h
  simp only [CursorsAgree, afterPush_wr, afterPush_rd, afterPush_count, afterPush_k, countAfterPush, if_pos hroom, hwr,
    Nat.mod_add_mod, Nat.add_assoc]

/-- Every command keeps the relation, RING_CONSUME and RING_INIT by moving the cursors, the others by leaving them. -/
theorem exec_keeps_cursorsAgree {i : Instr} {s t : State} (hexec : exec i s = .next t) (h : CursorsAgree s) :
    CursorsAgree t := by
  cases exec_outcome hexec with
  | ringInit => exact cursorsAgree_of_zero rfl rfl rfl
  | ringConsume _ hcount => exact cursorsAgree_ringConsume h hcount
  | _ => exact h

/-- Every transaction that leaves the ring ready keeps the relation, unless it is a push with no room left in COUNT. -/
theorem outcome_keeps_cursorsAgree {s t : State} {e : Event} (hout : EventOutcome s e t) (h : CursorsAgree s)
    (hroom : IsPush e → s.count < 2 ^ s.sizes.cntW - 1) (hready : t.ringReady = true) : CursorsAgree t := by
  cases hout with
  | command _ hexec => exact exec_keeps_cursorsAgree hexec h
  | push raw => exact cursorsAgree_afterPush h (hroom ⟨raw, rfl⟩)
  | reset => simp at hready
  | _ => exact h

/-- RING_INIT that does not answer ERR has set the ring up (40_ring.md R112). -/
theorem cursorsAgree_of_ringInit {cap blen : Nat} {s t : State} (hexec : exec (.ringInit cap blen) s = .next t)
    (hresult : t.result = 0#32) : CursorsAgree t := by
  obtain rfl | ⟨-, -, rfl⟩ := execRingInit_next hexec
  · exact absurd hresult (by simp [errResult])
  · exact cursorsAgree_of_zero rfl rfl rfl

/-- Settles O28: COUNT of a good ready ring is at most `2^CNT_W - 1`, so a push that is not at that value has room. -/
theorem cursorRelationKeptBelowSaturation : Obligations.CursorRelationKeptBelowSaturation := by
  unfold Obligations.CursorRelationKeptBelowSaturation
  intro s t e rest hinv hinbox hstep
  refine ⟨fun hready hagree hnotfull hready' => ?_, fun cap blen hcmd hresult => ?_⟩
  · have hroom (hpush : IsPush e) : s.count < 2 ^ s.sizes.cntW - 1 :=
      lt_of_le_of_ne (hinv.ready hready).count_le (fun hfull => hnotfull ⟨hpush, hfull⟩)
    exact outcome_keeps_cursorsAgree (step_outcome hinbox hstep) hagree hroom hready'
  · obtain ⟨c, rfl, hdecode⟩ := hcmd
    rw [step_command hinbox hdecode] at hstep
    exact cursorsAgree_of_ringInit hstep hresult

end Sys2Proof.Proofs
end

section
/-! PROOFS. Who writes STATUS's error bits, OVR and RESULT (10_state.md R28, R30, R31), and what a CMD access and a reset
do (10_state.md R22, R35). -/

namespace Sys2Proof.Proofs

open Sys2Proof.Machine Sys2Proof.Safety Sys2Proof.Laws

/-! The error bits. -/

theorem withError_keeps_set {errors : BitVec 7} {n : Nat} (e : ErrorCause) (h : errors.getLsbD n = true) :
    (withError errors e).getLsbD n = true := by
  simp [withError, h]

/-- A STATUS write takes out exactly the error bits it has a 1 for (10_state.md R31). -/
theorem clearedBy_getLsbD (errors : BitVec 7) (v : Word) {i : Nat} (hi : i < 7) :
    (clearedBy errors v).getLsbD i = (errors.getLsbD i && !v.getLsbD (8 + i)) := by
  simp [clearedBy, hi]

/-- No command clears an error bit: only an error writes them, and it sets one. -/
theorem exec_keeps_errorBits {i : Instr} {s t : State} (hexec : exec i s = .next t) {n : Nat}
    (h : s.errors.getLsbD n = true) : t.errors.getLsbD n = true := by
  cases exec_outcome hexec with
  | raised _ e => exact withError_keeps_set e h
  | _ => exact h

/-- A transaction that clears an error bit is a reset or the STATUS write of a 1 to it. -/
theorem outcome_clears_errorBit {s t : State} {e : Event} (hout : EventOutcome s e t) {n : Nat}
    (hset : s.errors.getLsbD n = true) (hclear : t.errors.getLsbD n = false) :
    e = .reset ∨ ∃ v : Word, e = .hostWrite 0x8#32 .word v ∧ v.getLsbD (8 + n) = true := by
  have hnotkept : ¬ t.errors.getLsbD n = true := by simp [hclear]
  cases hout with
  | command _ hexec => exact absurd (exec_keeps_errorBits hexec hset) hnotkept
  | statusWrite v =>
    have hn : n < 7 := BitVec.lt_of_getLsbD hset
    rw [clearErrors_errors, clearedBy_getLsbD _ _ hn, hset] at hclear
    exact .inr ⟨v, rfl, by simpa using hclear⟩
  | reset => exact .inl rfl
  | fxpWrite => exact absurd hset hnotkept
  | read => exact absurd hset hnotkept
  | push => exact absurd hset hnotkept
  | _ => exact absurd (withError_keeps_set _ hset) hnotkept

/-- Settles O41: commands and transactions, one lemma each. -/
theorem errorBitsAreSticky : Obligations.ErrorBitsAreSticky := by
  unfold Obligations.ErrorBitsAreSticky
  exact ⟨fun i s t n hexec hset => exec_keeps_errorBits hexec hset,
    fun s t e rest n hinbox hstep hset hclear => outcome_clears_errorBit (step_outcome hinbox hstep) hset hclear⟩

/-- Settles O40: the write reaches STATUS, and the bits it leaves are those of `clearedBy`. -/
theorem statusWriteClearsOnes : Obligations.StatusWriteClearsOnes := by
  unfold Obligations.StatusWriteClearsOnes
  intro s v rest hinbox
  have hstep : step s = .next (State.clearErrors { s with inbox := rest } v) := step_cons hinbox
  exact ⟨clearedBy s.errors v, hstep, fun i hi => clearedBy_getLsbD s.errors v hi⟩

/-! The overrun flag. -/

/-- A command leaves OVR alone, or clears it as RING_OVR_CLEAR or RING_INIT (10_state.md R28). -/
theorem exec_ovr {i : Instr} {s t : State} (hexec : exec i s = .next t) :
    t.ovr = s.ovr ∨ (t.ovr = false ∧ (i = .ringOvrClear ∨ ∃ cap blen, i = .ringInit cap blen)) := by
  cases exec_outcome hexec with
  | @ringInit cap blen => exact .inr ⟨rfl, .inr ⟨cap, blen, rfl⟩⟩
  | ringOvrClear => exact .inr ⟨rfl, .inl rfl⟩
  | _ => exact .inl rfl

/-- What a transaction does to OVR: nothing, clear it as one of its three clearers, or keep it set or set it as a push. -/
theorem outcome_ovr {s t : State} {e : Event} (hout : EventOutcome s e t) :
    t.ovr = s.ovr ∨
    (t.ovr = false ∧ (e = .reset ∨ Commands e .ringOvrClear ∨ ∃ cap blen, Commands e (.ringInit cap blen))) ∨
    (IsPush e ∧ (s.ovr = true → t.ovr = true)) := by
  cases hout with
  | @command c i _ hdecode hexec =>
    obtain hsame | ⟨hclear, rfl | ⟨cap, blen, rfl⟩⟩ := exec_ovr hexec
    · exact .inl hsame
    · exact .inr (.inl ⟨hclear, .inr (.inl ⟨c, rfl, hdecode⟩)⟩)
    · exact .inr (.inl ⟨hclear, .inr (.inr ⟨cap, blen, c, rfl, hdecode⟩)⟩)
  | push raw => exact .inr (.inr ⟨⟨raw, rfl⟩, fun hset => by simp [overrunCheck, hset]⟩)
  | reset => exact .inr (.inl ⟨rfl, .inl rfl⟩)
  | _ => exact .inl rfl

/-- Settles O43: of the three things a transaction can do to OVR, one alone turns it off and one alone turns it on. -/
theorem overrunFlagWriters : Obligations.OverrunFlagWriters := by
  unfold Obligations.OverrunFlagWriters
  intro s t e rest hinbox hstep
  obtain hsame | ⟨hclear, hclearer⟩ | ⟨hpush, hkept⟩ := outcome_ovr (step_outcome hinbox hstep)
  · exact ⟨fun hset hclear => by simp [hsame, hset] at hclear, fun hclear hset => by simp [hsame, hclear] at hset⟩
  · exact ⟨fun _ _ => hclearer, fun _ hset => by simp [hclear] at hset⟩
  · exact ⟨fun hset hclear => by simp [hkept hset] at hclear, fun _ _ => hpush⟩

/-! RESULT. -/

/-- Settles O47: every transaction but a CMD write and a reset leaves RESULT as it was. -/
theorem onlyCommandsWriteResult : Obligations.OnlyCommandsWriteResult := by
  unfold Obligations.OnlyCommandsWriteResult
  intro s t e rest hinbox hstep hchanged
  cases step_outcome hinbox hstep with
  | @command c => exact .inr ⟨c, rfl⟩
  | @illegalWord c => exact .inr ⟨c, rfl⟩
  | reset => exact .inl rfl
  | _ => exact absurd rfl hchanged

/-! CMD and reset. -/

/-- Settles O5: a write of a legal word runs its command; a read returns 0. -/
theorem stepRunsTheCommandWrittenToCmd : Obligations.StepRunsTheCommandWrittenToCmd := by
  unfold Obligations.StepRunsTheCommandWrittenToCmd
  refine ⟨fun s c rest i hinbox hdecode => step_command hinbox hdecode, fun s rest hinbox => ?_⟩
  rw [step_cons hinbox]
  exact hostRead_some (busTarget_zero _)

/-- Settles O7: a reset event is `State.hardwareReset`, whose fields and those of `State.reset` are the reset column of
R22. -/
theorem hardwareResetValues : Obligations.HardwareResetValues := by
  unfold Obligations.HardwareResetValues
  exact ⟨fun s rest hinbox => ⟨State.hardwareReset { s with inbox := rest }, step_cons hinbox, by simp⟩, by simp⟩

end Sys2Proof.Proofs
end

section
/-! PROOFS. The host bus (20_memory.md R60 to R70): what an access that is not performed leaves, what each register and
each window reads as, what an FXP write stores, and who writes each of the three memories (R62). -/

namespace Sys2Proof.Proofs

open Sys2Proof.Machine Sys2Proof.Safety Sys2Proof.Laws

/-! One bus transaction as a step. -/

/-- A performed read: the value goes to the host and nothing else changes (20_memory.md R75). -/
theorem step_read {s : State} {a : Word} {size : AccessSize} {rest : List Event} {target : BusTarget} {w : Word}
    (hinbox : s.inbox = .hostRead a size :: rest) (htarget : s.busTarget? a size = some target)
    (hvalue : s.busRead target = w) : step s = .next { s with inbox := rest, readData := w } := by
  have hread := hostRead_some (s := { s with inbox := rest }) htarget
  rw [step_cons hinbox, applyEvent, hread, ← hvalue]
  cases target <;> rfl

/-- A performed write of FXP (20_memory.md R65). -/
theorem step_fxpWrite {s : State} {a v : Word} {size : AccessSize} {rest : List Event} {offset : Nat}
    (hinbox : s.inbox = .hostWrite a size v :: rest) (htarget : s.busTarget? a size = some (.fxpWindow offset)) :
    step s = .next { s with inbox := rest, fxpIn := s.fxpIn.store offset (leBytes 4 v.toNat) } :=
  (step_cons hinbox).trans (hostWrite_fxp v htarget)

/-! Accesses that are not performed (20_memory.md R68). -/

/-- E_BUS is bit 13 of STATUS, bit 5 of the seven error bits (60_exceptions.md R201). -/
theorem withError_bus (errors : BitVec 7) : withError errors .bus = errors ||| 0b0100000#7 := rfl

/-- What a write may not reach: nothing at all, a read-only register, or a read-only window (20_memory.md R68). -/
inductive NotWritable : Option BusTarget → Prop where
  | unreached : NotWritable none
  | result : NotWritable (some .result)
  | ringCfg : NotWritable (some .ringCfg)
  | fbCfg : NotWritable (some .fbCfg)
  | param : NotWritable (some .param)
  | outWindow (offset : Nat) : NotWritable (some (.outWindow offset))
  | ringWindow (offset : Nat) : NotWritable (some (.ringWindow offset))

theorem hostWrite_notWritable {s : State} {a : Word} {size : AccessSize} (v : Word)
    (h : NotWritable (s.busTarget? a size)) : hostWrite a size v s = .next (s.setError .bus) := by
  unfold hostWrite
  generalize s.busTarget? a size = target at h
  cases h <;> rfl

/-- The readable registers but CMD, by their addresses (20_memory.md R63). -/
theorem registerAddress_cases {a : Word} (h : a.toNat ∈ [0x4, 0x8, 0xC, 0x10, 0x14]) :
    a = 0x4#32 ∨ a = 0x8#32 ∨ a = 0xC#32 ∨ a = 0x10#32 ∨ a = 0x14#32 := by
  simp only [List.mem_cons, List.not_mem_nil, or_false] at h
  bv_omega

theorem notWritable_register (s : State) {a : Word} (h : a.toNat ∈ [0x4, 0xC, 0x10, 0x14]) :
    NotWritable (s.busTarget? a .word) := by
  have hmem : a.toNat ∈ [0x4, 0x8, 0xC, 0x10, 0x14] := by
    simp only [List.mem_cons, List.not_mem_nil, or_false] at h ⊢
    omega
  obtain rfl | rfl | rfl | rfl | rfl := registerAddress_cases hmem
  · exact .result
  · simp at h
  · exact .ringCfg
  · exact .fbCfg
  · exact .param

/-- The writes of 20_memory.md R68 reach nothing they may write. -/
theorem notWritable_of_busError {s : State} {a : Word} {size : AccessSize} (hsizes : s.sizes.Valid)
    (h : size ≠ .word ∨ a.toNat % 4 ≠ 0 ∨ ¬ Mapped s.sizes a.toNat ∨ a.toNat ∈ [0x4, 0xC, 0x10, 0x14] ∨
      InWindow s.sizes .out 0x10000 a.toNat ∨ InWindow s.sizes .ring 0x100000 a.toNat) :
    NotWritable (s.busTarget? a size) := by
  by_cases hshape : size = .word ∧ a.toNat % 4 = 0
  · obtain ⟨rfl, haligned⟩ := hshape
    obtain hword | hmis | hunmapped | hregister | hout | hring := h
    · exact absurd rfl hword
    · exact absurd haligned hmis
    · exact busTarget_none (.inr (.inr hunmapped)) ▸ .unreached
    · exact notWritable_register s hregister
    · exact busTarget_outWindow hsizes haligned hout ▸ .outWindow _
    · exact busTarget_ringWindow hsizes haligned hring ▸ .ringWindow _
  · have hnone : s.busTarget? a size = none := if_neg hshape
    exact hnone ▸ .unreached

/-- Settles O36: such a read finds no target, and such a write none it may write. -/
theorem busErrorsChangeOnlyEBus : Obligations.BusErrorsChangeOnlyEBus := by
  unfold Obligations.BusErrorsChangeOnlyEBus
  simp only [← withError_bus]
  refine ⟨fun s a size rest hinbox herror => ?_, fun s a size v rest hsizes hinbox herror => ?_⟩
  · have hnone : State.busTarget? { s with inbox := rest } a size = none := busTarget_none herror
    rw [step_cons hinbox, applyEvent, hostRead, hnone]
    rfl
  · rw [step_cons hinbox]
    exact hostWrite_notWritable (s := { s with inbox := rest }) v (notWritable_of_busError hsizes herror)

/-! STATUS, bit by bit (10_state.md R31). -/

theorem statusWord_ringReady (s : State) : s.statusWord.getLsbD 0 = s.ringReady := by
  simp only [State.statusWord, BitVec.getLsbD_append]
  simp

theorem statusWord_fbReady (s : State) : s.statusWord.getLsbD 1 = s.fbReady := by
  simp only [State.statusWord, BitVec.getLsbD_append]
  simp

theorem statusWord_zeros (s : State) {i : Nat} (hlow : 2 ≤ i) (hhigh : i < 8) : s.statusWord.getLsbD i = false := by
  simp only [State.statusWord, BitVec.getLsbD_append]
  rw [if_neg (by omega), if_neg (by omega), if_pos (by omega), BitVec.getLsbD_zero]

/-- The error bits stand from bit 8 upwards; past the seventh both sides are 0. -/
theorem statusWord_errors (s : State) (i : Nat) : s.statusWord.getLsbD (8 + i) = s.errors.getLsbD i := by
  have hplace : 8 + i - 1 - 1 - 6 = i := by omega
  simp only [State.statusWord, BitVec.getLsbD_append, hplace]
  rw [if_neg (by omega), if_neg (by omega), if_neg (by omega)]
  split
  · rfl
  · rw [BitVec.getLsbD_zero, BitVec.getLsbD_of_ge _ _ (by omega)]

theorem statusWord_past_errors (s : State) {i : Nat} (h : 15 ≤ i) : s.statusWord.getLsbD i = false := by
  obtain ⟨j, rfl⟩ := Nat.exists_eq_add_of_le (show 8 ≤ i by omega)
  rw [statusWord_errors, BitVec.getLsbD_of_ge _ _ (by omega)]

/-! RING_CFG, FB_CFG and PARAM as numbers (10_state.md R32 to R34). -/

/-- Two bit strings side by side, as numbers. -/
theorem toNat_append_eq_add {m n : Nat} (x : BitVec m) (y : BitVec n) :
    (x ++ y).toNat = x.toNat * 2 ^ n + y.toNat := by
  rw [BitVec.toNat_append, ← Nat.shiftLeft_add_eq_or_of_lt y.isLt, Nat.shiftLeft_eq]

theorem ringCfgWord_toNat {s : State} (hk : s.k < 2 ^ 8) (hblen : s.blen < 2 ^ 16) :
    s.ringCfgWord.toNat = s.blen * 2 ^ 16 + s.k := by
  simp only [State.ringCfgWord, toNat_append_eq_add, BitVec.toNat_ofNat, Nat.mod_eq_of_lt hk, Nat.mod_eq_of_lt hblen]
  omega

theorem kMax_le {z : Sizes} (h : z.Valid) : z.kMax ≤ 128 := by
  have hmem := h.kMax_mem
  simp only [List.mem_cons, List.not_mem_nil, or_false] at hmem
  omega

/-- N_MAX, CNT_W and K_MAX fit their fields of PARAM (00_scope.md R9). -/
theorem paramWord_toNat {s : State} (h : s.sizes.Valid) :
    s.paramWord.toNat = s.sizes.nMax * 2 ^ 16 + s.sizes.cntW * 2 ^ 8 + s.sizes.kMax := by
  have hk : s.sizes.kMax < 2 ^ 8 := Nat.lt_of_le_of_lt (kMax_le h) (by decide)
  have hn : s.sizes.nMax < 2 ^ 16 := Nat.lt_of_le_of_lt h.nMax_le (by decide)
  have hw : s.sizes.cntW < 2 ^ 5 := Nat.lt_of_le_of_lt h.cntW_le (by decide)
  simp only [State.paramWord, toNat_append_eq_add, BitVec.toNat_ofNat, Nat.mod_eq_of_lt hk, Nat.mod_eq_of_lt hn,
    Nat.mod_eq_of_lt hw]
  omega

theorem rateCodeWord_toNat (r : RateCode) : (BitVec.ofNat 32 r.code).toNat = r.code := by
  rw [BitVec.toNat_ofNat, Nat.mod_eq_of_lt ((code_lt r).trans (by decide))]

/-- In a good state K and BLEN fit their fields of RING_CFG (10_state.md R24, R25). -/
theorem inv_ringCfg_fits {s : State} (h : Inv s) : s.k < 2 ^ 8 ∧ s.blen < 2 ^ 16 := by
  cases hready : s.ringReady with
  | false =>
    have hidle := h.idle hready
    simp [hidle.k_zero, hidle.blen_zero]
  | true =>
    have hring := h.ready hready
    have hk := hring.k_le
    have hkMax := kMax_le h.sizes
    have hblen := hring.blen_le
    have hnMax := h.sizes.nMax_le
    simp only [Sizes.slotStride] at hblen
    omega

/-- Settles O37: each of the five addresses reaches its register, whose word `busRead` returns. -/
theorem registerReads : Obligations.RegisterReads := by
  unfold Obligations.RegisterReads
  intro s a rest hinv hinbox ha
  obtain ⟨hk, hblen⟩ := inv_ringCfg_fits hinv
  obtain rfl | rfl | rfl | rfl | rfl := registerAddress_cases ha
  · exact ⟨s.result, step_read (target := .result) hinbox rfl rfl, by simp⟩
  · refine ⟨s.statusWord, step_read (target := .status) hinbox rfl rfl, by simp, fun _ => ?_, by simp⟩
    exact ⟨statusWord_ringReady s, statusWord_fbReady s, fun i _ => statusWord_errors s i,
      fun _ hlow hhigh => statusWord_zeros s hlow hhigh, fun _ hhigh => statusWord_past_errors s hhigh⟩
  · exact ⟨s.ringCfgWord, step_read (target := .ringCfg) hinbox rfl rfl, by simp [ringCfgWord_toNat hk hblen]⟩
  · exact ⟨BitVec.ofNat 32 s.target.code, step_read (target := .fbCfg) hinbox rfl rfl,
      by simpa using rateCodeWord_toNat s.target⟩
  · exact ⟨s.paramWord, step_read (target := .param) hinbox rfl rfl, by simp [paramWord_toNat hinv.sizes]⟩

/-! The three windows. -/

/-- Settles O38: in each window the read reaches its space, and `busRead` combines the four bytes little-endian. -/
theorem windowReadsAreLittleEndian : Obligations.WindowReadsAreLittleEndian := by
  unfold Obligations.WindowReadsAreLittleEndian
  intro s a rest sp base hsizes hinbox haligned hspace hwindow
  obtain ⟨rfl, rfl⟩ | ⟨rfl, rfl⟩ | ⟨rfl, rfl⟩ := hspace
  · exact step_read hinbox (busTarget_outWindow hsizes haligned hwindow) (memRead4 s .out _)
  · exact step_read hinbox (busTarget_fxpWindow hsizes haligned hwindow) (memRead4 s .fxp _)
  · exact step_read hinbox (busTarget_ringWindow hsizes haligned hwindow) (memRead4 s .ring _)

/-- Byte `c` of a word's number is its bits [8c+7:8c] (00_scope.md R14). -/
theorem ofNat_div_pow_eq_extractLsb' (v : Word) (c : Nat) :
    BitVec.ofNat 8 (v.toNat / 256 ^ c) = v.extractLsb' (8 * c) 8 := by
  apply BitVec.eq_of_toNat_eq
  rw [BitVec.extractLsb'_toNat, Nat.shiftRight_eq_div_pow, pow_mul]
  rfl

/-- What a word written to a space reads as, byte by byte (20_memory.md R65, R70). -/
theorem byteAt_memWrite_word (s : State) (sp : Space) (o : Nat) (v : Word) {c : Nat} (hc : c < 4) :
    (s.memWrite sp o 4 v.toNat).byteAt sp (o + c) = v.extractLsb' (8 * c) 8 := by
  rw [State.memWrite, byteAt_store, if_pos ⟨rfl, by omega, by rw [leBytes_length]; omega⟩, Nat.add_sub_cancel_left,
    leBytes_getD hc, ofNat_div_pow_eq_extractLsb']

theorem byteAt_memWrite_outside (s : State) (sp : Space) {o n a : Nat} (v : Nat) (h : a < o ∨ o + n ≤ a) :
    (s.memWrite sp o n v).byteAt sp a = s.byteAt sp a := by
  rw [State.memWrite, byteAt_store, leBytes_length, if_neg (by omega)]

theorem memRead_memWrite_word (s : State) (sp : Space) (o : Nat) (v : Word) :
    BitVec.ofNat 32 ((s.memWrite sp o 4 v.toNat).memRead sp o 4) = v := by
  have hfits : v.toNat % 256 ^ 4 = v.toNat := Nat.mod_eq_of_lt v.isLt
  rw [memRead_memWrite, hfits, BitVec.ofNat_toNat, BitVec.setWidth_eq]

/-- Settles O39: the write stores the word's bytes in FXP, and a read of the address reads them back. -/
theorem fxpWriteStoresAndReadsBack : Obligations.FxpWriteStoresAndReadsBack := by
  unfold Obligations.FxpWriteStoresAndReadsBack
  intro s a v rest hsizes hinbox haligned hwindow
  have htarget := busTarget_fxpWindow hsizes haligned hwindow
  refine ⟨_, step_fxpWrite hinbox htarget, fun c hc => byteAt_memWrite_word s .fxp _ v hc,
    fun o ho => byteAt_memWrite_outside s .fxp v.toNat ho, fun later hlater => ?_⟩
  exact step_read hlater htarget (memRead_memWrite_word s .fxp _ v)

/-! Who writes RING, OUT and FXP (20_memory.md R62). -/

/-- No command writes RING or FXP, and only FB_DOWNSAMPLE and FMT_CONVERT write OUT. -/
theorem exec_memories {i : Instr} {s t : State} (hexec : exec i s = .next t) :
    t.ringMem = s.ringMem ∧ t.fxpIn = s.fxpIn ∧
    (t.outMem = s.outMem ∨ (∃ slot depth rawlen, i = .fbDownsample slot depth rawlen) ∨
      ∃ depth count, i = .fmtConvert depth count) := by
  cases exec_outcome hexec with
  | fmtConvert depth count => exact ⟨rfl, rfl, .inr (.inr ⟨depth, count, rfl⟩)⟩
  | downsampleNative slot depth rawlen => exact ⟨rfl, rfl, .inr (.inl ⟨slot, depth, rawlen, rfl⟩)⟩
  | downsampleCascade slot depth rawlen => exact ⟨rfl, rfl, .inr (.inl ⟨slot, depth, rawlen, rfl⟩)⟩
  | _ => exact ⟨rfl, rfl, .inl rfl⟩

/-- Settles O45: a push writes RING, an FXP write FXP, the two output commands OUT, and nothing else writes a memory. -/
theorem eachMemoryHasItsWriters : Obligations.EachMemoryHasItsWriters := by
  unfold Obligations.EachMemoryHasItsWriters
  intro s t e rest hinbox hstep hreset
  cases step_outcome hinbox hstep with
  | @command c i _ hdecode hexec =>
    obtain ⟨hring, hfxp, hout⟩ := exec_memories hexec
    refine ⟨fun h => absurd hring h, fun h => ?_, fun h => absurd hfxp h⟩
    obtain hsame | ⟨slot, depth, rawlen, rfl⟩ | ⟨depth, count, rfl⟩ := hout
    · exact absurd hsame h
    · exact .inl ⟨slot, depth, rawlen, c, rfl, hdecode⟩
    · exact .inr ⟨depth, count, c, rfl, hdecode⟩
  | @fxpWrite a v _ htarget =>
    obtain ⟨-, -, hwindow, -⟩ := busTarget_fxp htarget
    exact ⟨fun h => absurd rfl h, fun h => absurd rfl h, fun _ => ⟨a, v, rfl, hwindow⟩⟩
  | push raw => exact ⟨fun _ => ⟨raw, rfl⟩, fun h => absurd rfl h, fun h => absurd rfl h⟩
  | reset => exact absurd rfl hreset
  | _ => exact ⟨fun h => absurd rfl h, fun h => absurd rfl h, fun h => absurd rfl h⟩

end Sys2Proof.Proofs
end

section
/-! PROOFS. The command word (30_encoding.md R90 to R104): decoding and encoding undo each other, and the decoder rejects
exactly the illegal words of R100. The decoder is read once, as one equation per format; every word has one of the
formats, by its opcode. -/

namespace Sys2Proof.Proofs

open Sys2Proof.Machine Sys2Proof.Safety Sys2Proof.Laws

/-! The decoder, one equation per format. -/

/-- The commands of format F0, which have no operands (30_encoding.md R92). -/
def f0Commands : List Instr :=
  [.nop, .ringAvailable, .ringConsume, .ringOvrRead, .ringOvrClear, .fbInit]

theorem encode_f0 : ∀ {i : Instr}, i ∈ f0Commands → encode i = encodeF0 i.opcode := by
  decide

theorem wellFormed_f0 : ∀ {i : Instr}, i ∈ f0Commands → i.wellFormed = true := by
  decide

theorem opcode_f0 {i : Instr} (hi : i ∈ f0Commands) : i.opcode ∈ [0x0, 0x2, 0x3, 0x4, 0x5, 0x6] :=
  List.mem_map_of_mem hi

theorem decode_f0 {c : Word} {i : Instr} (hi : i ∈ f0Commands) (hop : field c 0 4 = i.opcode) :
    decode c = legalWhen (field c 4 28) i.opcode i := by
  simp only [f0Commands, List.mem_cons, List.not_mem_nil, or_false] at hi
  obtain rfl | rfl | rfl | rfl | rfl | rfl := hi <;> simp only [decode, hop, Instr.opcode]

theorem decode_fi {c : Word} (hop : field c 0 4 = 0x1) :
    decode c = legalWhen (field c 12 4) 0x1 (.ringInit (field c 4 8) (field c 16 16)) := by
  simp only [decode, hop]

theorem decode_ft {c : Word} (hop : field c 0 4 = 0x7) :
    decode c = legalWhen (field c 7 25) 0x7 (.fbSetTarget (.ofCode (field c 4 3))) := by
  simp only [decode, hop]

theorem decode_fd {c : Word} (hop : field c 0 4 = 0x8) :
    decode c = .ok (.fbDownsample (field c 4 7) (field c 11 5) (field c 16 16)) := by
  simp only [decode, hop]

theorem decode_fc {c : Word} (hop : field c 0 4 = 0x9) :
    decode c = legalWhen (field c 4 7) 0x9 (.fmtConvert (field c 11 5) (field c 16 16)) := by
  simp only [decode, hop]

theorem decode_reservedOpcode {c : Word} (hop : 0xA ≤ field c 0 4) :
    decode c = .error (.reservedOpcode (field c 0 4)) := by
  unfold decode
  split
  case h_11 => rfl
  all_goals omega

theorem legalWhen_zero (op : Nat) (i : Instr) : legalWhen 0 op i = .ok i := rfl

theorem legalWhen_eq_ok {reserved op : Nat} {i j : Instr} : legalWhen reserved op i = .ok j ↔ reserved = 0 ∧ i = j := by
  unfold legalWhen
  split <;> simp [*]

theorem legalWhen_rejects {reserved op : Nat} {i : Instr} :
    (∃ e, legalWhen reserved op i = .error e) ↔ reserved ≠ 0 := by
  unfold legalWhen
  split <;> simp [*]

/-- The format of a word, by its opcode (30_encoding.md R91 to R96, R100). -/
inductive WordFormat (c : Word) : Prop
  | f0 (i : Instr) (hi : i ∈ f0Commands) (hop : field c 0 4 = i.opcode)
  | fi (hop : field c 0 4 = 0x1)
  | ft (hop : field c 0 4 = 0x7)
  | fd (hop : field c 0 4 = 0x8)
  | fc (hop : field c 0 4 = 0x9)
  | reservedOpcode (hop : 0xA ≤ field c 0 4)

theorem wordFormat (c : Word) : WordFormat c :=
  match hop : field c 0 4 with
  | 0x0 => .f0 .nop (by decide) hop
  | 0x1 => .fi hop
  | 0x2 => .f0 .ringAvailable (by decide) hop
  | 0x3 => .f0 .ringConsume (by decide) hop
  | 0x4 => .f0 .ringOvrRead (by decide) hop
  | 0x5 => .f0 .ringOvrClear (by decide) hop
  | 0x6 => .f0 .fbInit (by decide) hop
  | 0x7 => .ft hop
  | 0x8 => .fd hop
  | 0x9 => .fc hop
  | _ + 0xA => .reservedOpcode (by omega)

/-! Well-formedness of the commands with numeric operands. -/

theorem wellFormed_ringInit {cap blen : Nat} :
    (Instr.ringInit cap blen).wellFormed = true ↔ cap < 2 ^ 8 ∧ blen < 2 ^ 16 := by
  simp [Instr.wellFormed]

theorem wellFormed_fbDownsample {slot depth rawlen : Nat} :
    (Instr.fbDownsample slot depth rawlen).wellFormed = true ↔ slot < 2 ^ 7 ∧ depth < 2 ^ 5 ∧ rawlen < 2 ^ 16 := by
  simp [Instr.wellFormed, and_assoc]

theorem wellFormed_fmtConvert {depth count : Nat} :
    (Instr.fmtConvert depth count).wellFormed = true ↔ depth < 2 ^ 5 ∧ count < 2 ^ 16 := by
  simp [Instr.wellFormed]

/-! From the command's side: the decoder reads back each operand that fits its field. -/

theorem decode_encode_f0 {i : Instr} (hi : i ∈ f0Commands) : decode (encode i) = .ok i := by
  have hsmall : i.opcode < 16 := by
    have hop := opcode_f0 hi
    simp only [List.mem_cons, List.not_mem_nil, or_false] at hop
    omega
  have hword : (encode i).toNat = i.opcode := by rw [encode_f0 hi, encodeF0_toNat, Nat.mod_eq_of_lt hsmall]
  have hop : field (encode i) 0 4 = i.opcode := by rw [field_eq, hword]; omega
  have hres : field (encode i) 4 28 = 0 := by rw [field_eq, hword]; omega
  rw [decode_f0 hi hop, hres, legalWhen_zero]

theorem decode_encode_ringInit {cap blen : Nat} (hcap : cap < 2 ^ 8) (hblen : blen < 2 ^ 16) :
    decode (encode (.ringInit cap blen)) = .ok (.ringInit cap blen) := by
  have hword := encode_ringInit_toNat cap blen
  have hres : field (encode (.ringInit cap blen)) 12 4 = 0 := by rw [field_eq, hword]; omega
  have hcapField : field (encode (.ringInit cap blen)) 4 8 = cap := by rw [field_eq, hword]; omega
  have hblenField : field (encode (.ringInit cap blen)) 16 16 = blen := by rw [field_eq, hword]; omega
  rw [decode_fi (OpcodeField.ringInit cap blen), hres, hcapField, hblenField, legalWhen_zero]

theorem decode_encode_fbSetTarget (rate : RateCode) :
    decode (encode (.fbSetTarget rate)) = .ok (.fbSetTarget rate) := by
  have hword := encode_fbSetTarget_toNat rate
  have hcode := code_lt rate
  have hres : field (encode (.fbSetTarget rate)) 7 25 = 0 := by rw [field_eq, hword]; omega
  have hrateField : field (encode (.fbSetTarget rate)) 4 3 = rate.code := by rw [field_eq, hword]; omega
  rw [decode_ft (OpcodeField.fbSetTarget rate), hres, hrateField, ofCode_code, legalWhen_zero]

theorem decode_encode_fbDownsample {slot depth rawlen : Nat} (hslot : slot < 2 ^ 7) (hdepth : depth < 2 ^ 5)
    (hrawlen : rawlen < 2 ^ 16) :
    decode (encode (.fbDownsample slot depth rawlen)) = .ok (.fbDownsample slot depth rawlen) := by
  have hword := encode_fbDownsample_toNat slot depth rawlen
  have hslotField : field (encode (.fbDownsample slot depth rawlen)) 4 7 = slot := by rw [field_eq, hword]; omega
  have hdepthField : field (encode (.fbDownsample slot depth rawlen)) 11 5 = depth := by rw [field_eq, hword]; omega
  have hrawlenField : field (encode (.fbDownsample slot depth rawlen)) 16 16 = rawlen := by
    rw [field_eq, hword]; omega
  rw [decode_fd (OpcodeField.fbDownsample slot depth rawlen), hslotField, hdepthField, hrawlenField]

theorem decode_encode_fmtConvert {depth count : Nat} (hdepth : depth < 2 ^ 5) (hcount : count < 2 ^ 16) :
    decode (encode (.fmtConvert depth count)) = .ok (.fmtConvert depth count) := by
  have hword := encode_fmtConvert_toNat depth count
  have hres : field (encode (.fmtConvert depth count)) 4 7 = 0 := by rw [field_eq, hword]; omega
  have hdepthField : field (encode (.fmtConvert depth count)) 11 5 = depth := by rw [field_eq, hword]; omega
  have hcountField : field (encode (.fmtConvert depth count)) 16 16 = count := by rw [field_eq, hword]; omega
  rw [decode_fc (OpcodeField.fmtConvert depth count), hres, hdepthField, hcountField, legalWhen_zero]

/-- Settles O1: one round trip per format. -/
theorem decodeUndoesEncode : Obligations.DecodeUndoesEncode := by
  unfold Obligations.DecodeUndoesEncode
  intro i hwf
  cases i with
  | ringInit cap blen =>
    obtain ⟨hcap, hblen⟩ := wellFormed_ringInit.mp hwf
    exact decode_encode_ringInit hcap hblen
  | fbSetTarget rate => exact decode_encode_fbSetTarget rate
  | fbDownsample slot depth rawlen =>
    obtain ⟨hslot, hdepth, hrawlen⟩ := wellFormed_fbDownsample.mp hwf
    exact decode_encode_fbDownsample hslot hdepth hrawlen
  | fmtConvert depth count =>
    obtain ⟨hdepth, hcount⟩ := wellFormed_fmtConvert.mp hwf
    exact decode_encode_fmtConvert hdepth hcount
  | _ => exact decode_encode_f0 (by decide)

/-! From the word's side: opcode, reserved bits and operand fields are all of the word. -/

theorem encode_fields_f0 {c : Word} {i : Instr} (hi : i ∈ f0Commands) (hop : field c 0 4 = i.opcode)
    (hres : field c 4 28 = 0) : encode i = c := by
  apply BitVec.eq_of_toNat_eq
  rw [encode_f0 hi, encodeF0_toNat, ← hop]
  simp only [field_eq] at *
  omega

theorem encode_fields_ringInit {c : Word} (hop : field c 0 4 = 0x1) (hres : field c 12 4 = 0) :
    encode (.ringInit (field c 4 8) (field c 16 16)) = c := by
  apply BitVec.eq_of_toNat_eq
  rw [encode_ringInit_toNat]
  simp only [field_eq] at *
  omega

theorem encode_fields_fbSetTarget {c : Word} (hop : field c 0 4 = 0x7) (hres : field c 7 25 = 0) :
    encode (.fbSetTarget (.ofCode (field c 4 3))) = c := by
  apply BitVec.eq_of_toNat_eq
  rw [encode_fbSetTarget_toNat, code_ofCode _ (field_lt c 4 3)]
  simp only [field_eq] at *
  omega

theorem encode_fields_fbDownsample {c : Word} (hop : field c 0 4 = 0x8) :
    encode (.fbDownsample (field c 4 7) (field c 11 5) (field c 16 16)) = c := by
  apply BitVec.eq_of_toNat_eq
  rw [encode_fbDownsample_toNat]
  simp only [field_eq] at *
  omega

theorem encode_fields_fmtConvert {c : Word} (hop : field c 0 4 = 0x9) (hres : field c 4 7 = 0) :
    encode (.fmtConvert (field c 11 5) (field c 16 16)) = c := by
  apply BitVec.eq_of_toNat_eq
  rw [encode_fmtConvert_toNat]
  simp only [field_eq] at *
  omega

/-- Settles O2: the decoded operands are fields of the word, so they fit, and with the opcode and the reserved bits they
make up the word. -/
theorem encodeUndoesDecode : Obligations.EncodeUndoesDecode := by
  unfold Obligations.EncodeUndoesDecode
  intro c i hdecode
  cases wordFormat c with
  | f0 j hj hop =>
    obtain ⟨hres, rfl⟩ := legalWhen_eq_ok.mp (decode_f0 hj hop ▸ hdecode)
    exact ⟨wellFormed_f0 hj, encode_fields_f0 hj hop hres⟩
  | fi hop =>
    obtain ⟨hres, rfl⟩ := legalWhen_eq_ok.mp (decode_fi hop ▸ hdecode)
    exact ⟨wellFormed_ringInit.mpr ⟨field_lt c 4 8, field_lt c 16 16⟩, encode_fields_ringInit hop hres⟩
  | ft hop =>
    obtain ⟨hres, rfl⟩ := legalWhen_eq_ok.mp (decode_ft hop ▸ hdecode)
    exact ⟨rfl, encode_fields_fbSetTarget hop hres⟩
  | fd hop =>
    obtain rfl := Except.ok.inj (decode_fd hop ▸ hdecode)
    exact ⟨wellFormed_fbDownsample.mpr ⟨field_lt c 4 7, field_lt c 11 5, field_lt c 16 16⟩,
      encode_fields_fbDownsample hop⟩
  | fc hop =>
    obtain ⟨hres, rfl⟩ := legalWhen_eq_ok.mp (decode_fc hop ▸ hdecode)
    exact ⟨wellFormed_fmtConvert.mpr ⟨field_lt c 11 5, field_lt c 16 16⟩, encode_fields_fmtConvert hop hres⟩
  | reservedOpcode hop => simp [decode_reservedOpcode hop] at hdecode

/-! Illegal words (30_encoding.md R100). -/

/-- R100 for a word whose opcode is one of format F0. -/
theorem illegalWordPattern_f0 {c : Word} {i : Instr} (hi : i ∈ f0Commands) (hop : field c 0 4 = i.opcode) :
    IllegalWordPattern c ↔ field c 4 28 ≠ 0 := by
  have hmem : field c 0 4 ∈ [0x0, 0x2, 0x3, 0x4, 0x5, 0x6] := hop ▸ opcode_f0 hi
  simp only [IllegalWordPattern, hmem, true_and]
  simp only [List.mem_cons, List.not_mem_nil, or_false] at hmem
  omega

theorem decode_rejects_iff (c : Word) : (∃ e, decode c = .error e) ↔ IllegalWordPattern c := by
  cases wordFormat c with
  | f0 i hi hop => rw [decode_f0 hi hop, legalWhen_rejects, illegalWordPattern_f0 hi hop]
  | fi hop => rw [decode_fi hop, legalWhen_rejects]; simp [IllegalWordPattern, hop]
  | ft hop => rw [decode_ft hop, legalWhen_rejects]; simp [IllegalWordPattern, hop]
  | fd hop => simp [decode_fd hop, IllegalWordPattern, hop]
  | fc hop => rw [decode_fc hop, legalWhen_rejects]; simp [IllegalWordPattern, hop]
  | reservedOpcode hop => simp [decode_reservedOpcode hop, IllegalWordPattern, hop]

/-- An illegal word written to CMD raises E_ILLEGAL (10_state.md R35, 30_encoding.md R100). -/
theorem step_illegalWord {s : State} {c : Word} {rest : List Event} {e : IllegalWord}
    (hinbox : s.inbox = .hostWrite 0x0#32 .word c :: rest) (hdecode : decode c = .error e) :
    step s = .next (State.raise { s with inbox := rest } .illegal) := by
  simp only [step_cons hinbox, applyEvent, hostWrite, busTarget_zero, runCommand, hdecode]

/-- Settles O3: the words the decoder rejects are R100's, and a rejected word raises E_ILLEGAL, bit 8 of STATUS. -/
theorem illegalWordRaisesAndOnlyIllegalWordsAreRejected :
    Obligations.IllegalWordRaisesAndOnlyIllegalWordsAreRejected := by
  unfold Obligations.IllegalWordRaisesAndOnlyIllegalWordsAreRejected
  refine ⟨decode_rejects_iff, fun s c rest hinbox hillegal => ?_⟩
  obtain ⟨e, hdecode⟩ := (decode_rejects_iff c).mpr hillegal
  exact step_illegalWord hinbox hdecode

/-! The spec's examples and the field places. -/

/-- The word of a well-formed command also decodes to it. -/
theorem encodes_and_decodes {i : Instr} {c : Word} (hwf : i.wellFormed = true) (hword : encode i = c) :
    encode i = c ∧ decode c = .ok i :=
  ⟨hword, hword ▸ decodeUndoesEncode i hwf⟩

/-- Settles O4: each example's word by evaluation, its decoding by O1. -/
theorem specExampleWordsEncodeAndDecode : Obligations.SpecExampleWordsEncodeAndDecode := by
  unfold Obligations.SpecExampleWordsEncodeAndDecode
  refine ⟨?_, ?_, ?_, ?_, ?_, ?_, ?_, ?_, ?_, ?_, ?_, ?_⟩ <;> exact encodes_and_decodes (by decide) (by decide)

/-- Settles O54: an operand that fits its field stands in it unreduced. -/
theorem fieldPlacesOfDownsampleAndConvert : Obligations.FieldPlacesOfDownsampleAndConvert := by
  unfold Obligations.FieldPlacesOfDownsampleAndConvert
  refine ⟨fun slot depth rawlen hslot hdepth hrawlen => ?_, fun depth count hdepth hcount => ?_⟩
  · rw [encode_fbDownsample_toNat, Nat.mod_eq_of_lt hslot, Nat.mod_eq_of_lt hdepth, Nat.mod_eq_of_lt hrawlen]
  · rw [encode_fmtConvert_toNat, Nat.mod_eq_of_lt hdepth, Nat.mod_eq_of_lt hcount]

end Sys2Proof.Proofs
end

section
/-! PROOFS. The Acquisition Ring (40_ring.md): what each of its five commands does and leaves alone, what a push stores,
and which steps move COUNT. -/

namespace Sys2Proof.Proofs

open Sys2Proof.Machine Sys2Proof.Safety Sys2Proof.Laws

/-! The errors of the ring, by their bits (60_exceptions.md R201). -/

theorem raise_ringUninit (s : State) :
    s.raise .ringUninit = { s with errors := s.errors ||| 0b0000010#7, result := 0xFFFFFFFF#32 } := rfl

theorem raise_empty (s : State) :
    s.raise .empty = { s with errors := s.errors ||| 0b0001000#7, result := 0xFFFFFFFF#32 } := rfl

theorem raise_arg (s : State) :
    s.raise .arg = { s with errors := s.errors ||| 0b0010000#7, result := 0xFFFFFFFF#32 } := rfl

theorem setError_pushDrop (s : State) :
    s.setError .pushDrop = { s with errors := s.errors ||| 0b1000000#7 } := rfl

/-! The commands that need a ready ring. -/

/-- The ring commands other than RING_INIT. -/
def readyRingCommands : List Instr :=
  [.ringAvailable, .ringConsume, .ringOvrRead, .ringOvrClear]

/-- Each of them checks RING_READY first (40_ring.md R110). -/
theorem exec_ringUninit {s : State} {i : Instr} (hi : i ∈ readyRingCommands) (hidle : s.ringReady = false) :
    exec i s = .next (s.raise .ringUninit) := by
  simp only [readyRingCommands, List.mem_cons, List.not_mem_nil, or_false] at hi
  obtain rfl | rfl | rfl | rfl := hi <;> exact if_pos hidle

section
variable {s : State} (hready : s.ringReady = true)
include hready

theorem not_ringReady_false : ¬ s.ringReady = false := by simp [hready]

theorem exec_ringAvailable_ready : exec .ringAvailable s = .next (s.ret s.count) :=
  if_neg (not_ringReady_false hready)

theorem exec_ringConsume_empty (hcount : s.count = 0) : exec .ringConsume s = .next (s.raise .empty) :=
  (if_neg (not_ringReady_false hready)).trans (if_pos hcount)

theorem exec_ringConsume_ready (hcount : s.count ≠ 0) :
    exec .ringConsume s = .next (State.ret { s with rd := (s.rd + 1) % s.k, count := s.count - 1 } s.rd) :=
  (if_neg (not_ringReady_false hready)).trans (if_neg hcount)

theorem exec_ringOvrRead_ready : exec .ringOvrRead s = .next (s.ret s.ovr.toNat) :=
  if_neg (not_ringReady_false hready)

theorem exec_ringOvrClear_ready : exec .ringOvrClear s = .next (State.ret { s with ovr := false } 0) :=
  if_neg (not_ringReady_false hready)

/-- COUNT of a good ready ring fits RESULT: it has CNT_W bits, at most 31 (00_scope.md R9). -/
theorem count_lt_result (hinv : Inv s) : s.count < 2 ^ 32 := by
  have hle := (hinv.ready hready).count_le
  have hpow : 2 ^ s.sizes.cntW ≤ 2 ^ 31 := Nat.pow_le_pow_right (by decide) hinv.sizes.cntW_le
  omega

end

/-- The flag as a number is its bit in RESULT (40_ring.md R124). -/
theorem ofNat_ovr (ovr : Bool) : BitVec.ofNat 32 ovr.toNat = if ovr then 1#32 else 0#32 := by
  cases ovr <;> rfl

/-- Settles O13: the commands are those of `readyRingCommands`. -/
theorem ringCommandsNeedReadyRing : Obligations.RingCommandsNeedReadyRing := by
  unfold Obligations.RingCommandsNeedReadyRing
  intro s i hi hidle
  rw [exec_ringUninit hi hidle, raise_ringUninit]

/-- Settles O10: COUNT is returned as it is, and in a good state it fits RESULT. -/
theorem ringAvailableReturnsCount : Obligations.RingAvailableReturnsCount := by
  unfold Obligations.RingAvailableReturnsCount
  refine ⟨by decide, fun s => ⟨fun hidle => ?_, exec_ringAvailable_ready, fun hinv hready => ⟨?_, ?_⟩⟩⟩
  · rw [exec_ringUninit (by decide) hidle, raise_ringUninit]
  · rw [BitVec.toNat_ofNat, Nat.mod_eq_of_lt (count_lt_result hready hinv)]
  · exact (hinv.ready hready).count_le

/-- Settles O11: RING_READY is checked before COUNT, and on a nonempty ready ring the slot at RD is returned. -/
theorem ringConsumeReturnsSlotOrRaisesEmpty : Obligations.RingConsumeReturnsSlotOrRaisesEmpty := by
  unfold Obligations.RingConsumeReturnsSlotOrRaisesEmpty
  refine ⟨by decide, fun s => ⟨fun hidle => ?_, fun hready hcount => ?_, exec_ringConsume_ready⟩⟩
  · rw [exec_ringUninit (by decide) hidle, raise_ringUninit]
  · rw [exec_ringConsume_empty hready hcount, raise_empty]

/-- Settles O12: both commands raise E_RING_UNINIT as every ring command does, and only RING_OVR_CLEAR writes OVR. -/
theorem overrunFlagCommands : Obligations.OverrunFlagCommands := by
  unfold Obligations.OverrunFlagCommands
  refine ⟨by decide, fun s => ⟨fun hidle i hi => ?_, fun hready => ⟨?_, exec_ringOvrClear_ready hready⟩⟩⟩
  · have hmem : i ∈ readyRingCommands := List.mem_cons_of_mem _ (List.mem_cons_of_mem _ hi)
    rw [exec_ringUninit hmem hidle, raise_ringUninit]
  · rw [exec_ringOvrRead_ready hready, State.ret, ofNat_ovr]

/-! RING_INIT. -/

/-- The powers of two up to 128, listed (40_ring.md, before R110). -/
theorem mem_capacities_iff {cap : Nat} (hle : cap ≤ 128) :
    cap ∈ [1, 2, 4, 8, 16, 32, 64, 128] ↔ ∃ n : Nat, cap = 2 ^ n := by
  have hlist : [1, 2, 4, 8, 16, 32, 64, 128] = (List.range 8).map (2 ^ ·) := by decide
  rw [hlist, List.mem_map]
  constructor
  · rintro ⟨n, -, hcap⟩
    exact ⟨n, hcap.symm⟩
  · rintro ⟨n, rfl⟩
    have hn : n ≤ 7 := (Nat.pow_le_pow_iff_right (by decide)).mp hle
    exact ⟨n, List.mem_range.mpr (by omega), rfl⟩

/-- Where K_MAX is legal, the check on CAP is R112's: the list ends no sooner than K_MAX (00_scope.md R9). -/
theorem capacityOk_iff {z : Sizes} (hsizes : z.Valid) (cap : Nat) :
    capacityOk z cap = true ↔ (∃ n : Nat, cap = 2 ^ n) ∧ cap ≤ z.kMax := by
  rw [capacityOk, Bool.and_eq_true, List.contains_iff_mem, decide_eq_true_eq]
  exact and_congr_left fun hle => mem_capacities_iff (hle.trans (kMax_le hsizes))

theorem blockLengthOk_iff (z : Sizes) (blen : Nat) :
    blockLengthOk z blen = true ↔ blen ≠ 0 ∧ blen % 3 = 0 ∧ blen ≤ 3 * z.nMax := by
  rw [blockLengthOk, Bool.and_eq_true, Bool.and_eq_true, decide_eq_true_eq, decide_eq_true_eq, decide_eq_true_eq,
    and_assoc, Sizes.slotStride]

theorem exec_ringInit_legal {s : State} {cap blen : Nat} (hcap : capacityOk s.sizes cap = true)
    (hblen : blockLengthOk s.sizes blen = true) :
    exec (.ringInit cap blen) s = .next (State.ret
      { s with k := cap, blen := blen, wr := 0, rd := 0, count := 0, ovr := false, ringReady := true } 0) :=
  (if_neg (by simp [hcap])).trans (if_neg (by simp [hblen]))

/-- Whichever of the two checks fails, the error is the same (40_ring.md R112). -/
theorem exec_ringInit_illegal {s : State} {cap blen : Nat}
    (h : ¬(capacityOk s.sizes cap = true ∧ blockLengthOk s.sizes blen = true)) :
    exec (.ringInit cap blen) s = .next (s.raise .arg) := by
  rw [exec_ringInit, execRingInit]
  split
  · rfl
  · split
    · rfl
    · rename_i hcap hblen
      exact absurd ⟨by simpa using hcap, by simpa using hblen⟩ h

/-- Settles O9: the model's two checks are R112's on legal sizes; operands that pass both set the ring up. -/
theorem ringInitSetsUpRingOrRaisesArg : Obligations.RingInitSetsUpRingOrRaisesArg := by
  unfold Obligations.RingInitSetsUpRingOrRaisesArg
  refine ⟨fun cap blen hcap hblen => ?_, fun s cap blen hsizes => ?_⟩
  · rw [encode_ringInit_toNat, Nat.mod_eq_of_lt hcap, Nat.mod_eq_of_lt hblen]
  · rw [← capacityOk_iff hsizes, ← blockLengthOk_iff]
    refine ⟨fun ⟨hcap, hblen⟩ => exec_ringInit_legal hcap hblen, fun hillegal => ?_⟩
    rw [exec_ringInit_illegal hillegal, raise_arg]

/-! A push. -/

/-- A push while the ring is not ready (40_ring.md R117). -/
theorem blockReady_idle {s : State} (raw : List Byte) (hidle : s.ringReady = false) :
    blockReady raw s = .next (s.setError .pushDrop) :=
  if_pos hidle

/-- A block that is not BLEN bytes long is no transaction of the spec (40_ring.md R116, log 11). -/
theorem blockReady_wrongLength {s : State} {raw : List Byte} (hready : s.ringReady = true)
    (hlen : raw.length ≠ s.blen) : blockReady raw s = .refused .blockLength :=
  (if_neg (not_ringReady_false hready)).trans (if_pos hlen)

/-- A push in a good state: the block, swapped, in the slot at WR, and the cursors (40_ring.md R114, R117). -/
theorem blockReady_ready {s : State} {raw : List Byte} (hinv : Inv s) (hready : s.ringReady = true)
    (hlen : raw.length = s.blen) :
    blockReady raw s = .next (s.store .ring (slotBase s.sizes s.wr) (swapSamples raw)).afterPush :=
  (if_neg (not_ringReady_false hready)).trans
    ((if_neg (by simp [hlen])).trans (if_pos (push_inSpace hinv hready)))

/-- Settles O25: E_PUSH_DROP is bit 14 of STATUS, bit 6 of the seven error bits. -/
theorem pushBeforeInitIsDropped : Obligations.PushBeforeInitIsDropped := by
  unfold Obligations.PushBeforeInitIsDropped
  intro s raw rest hinbox hidle
  have hdropped : step s = .next (State.setError { s with inbox := rest } .pushDrop) :=
    (step_cons hinbox).trans (blockReady_idle raw hidle)
  rw [hdropped, setError_pushDrop]

/-- Settles O26: a ready ring compares the length with BLEN before it stores anything. -/
theorem pushOfWrongLengthIsRefused : Obligations.PushOfWrongLengthIsRefused := by
  unfold Obligations.PushOfWrongLengthIsRefused
  intro s raw rest hinbox hready hlen
  exact (step_cons hinbox).trans (blockReady_wrongLength hready hlen)

/-- A byte of the slot a push wrote is the byte of the block that endianness correction puts there (40_ring.md R114). -/
theorem byteAt_pushed (s : State) (base : Nat) {raw : List Byte} (hwhole : raw.length % 3 = 0) {j c : Nat}
    (hj : j < raw.length / 3) (hc : c < 3) :
    (s.store .ring base (swapSamples raw)).byteAt .ring (base + 3 * j + c) = raw.getD (3 * j + (2 - c)) 0#8 := by
  have hoffset : base + 3 * j + c - base = 3 * j + c := by omega
  rw [byteAt_store, swapSamples_length hwhole, if_pos ⟨rfl, by omega, by omega⟩, hoffset,
    swapSamples_getD hc (by omega)]

/-- A push keeps every ring byte outside the block it writes. -/
theorem byteAt_outside_push (s : State) {base a : Nat} {raw : List Byte} (hwhole : raw.length % 3 = 0)
    (ha : a < base ∨ base + raw.length ≤ a) :
    (s.store .ring base (swapSamples raw)).byteAt .ring a = s.byteAt .ring a := by
  rw [byteAt_store, swapSamples_length hwhole, if_neg (by omega)]

/-- Settles O24: the bytes are those of one store in the slot at WR, the registers those of `State.afterPush`. -/
theorem pushStoresSwappedBlock : Obligations.PushStoresSwappedBlock := by
  unfold Obligations.PushStoresSwappedBlock
  intro s raw rest hinv hinbox hready hlen
  have hwhole : raw.length % 3 = 0 := hlen ▸ (hinv.ready hready).blen_mult
  refine ⟨s.ringMem.store (slotBase s.sizes s.wr) (swapSamples raw), countAfterPush s.sizes s.count, rfl, ?_,
    fun j c hj hc => ?_, fun a ha => ?_⟩
  · exact (step_cons hinbox).trans (blockReady_ready (inv_inbox hinv rest) hready hlen)
  · exact byteAt_pushed s (slotBase s.sizes s.wr) hwhole (hlen ▸ hj) hc
  · exact byteAt_outside_push s hwhole (hlen ▸ ha)

/-! Which steps move COUNT. -/

/-- Below saturation a push takes COUNT up by one (40_ring.md R117, R119). -/
theorem countAfterPush_of_room {sizes : Sizes} {count : Nat} (hroom : count < 2 ^ sizes.cntW - 1) :
    countAfterPush sizes count = count + 1 :=
  if_pos hroom

/-- A push on a ready ring that completes has stored its block. -/
theorem outcome_push_count {s t : State} {raw : List Byte} (hout : EventOutcome s (.blockReady raw) t)
    (hready : s.ringReady = true) : t.count = countAfterPush s.sizes s.count := by
  cases hout with
  | droppedPush _ hidle => exact absurd hidle (not_ringReady_false hready)
  | push => simp

/-- A RING_CONSUME that returns a slot takes COUNT down by one (40_ring.md R121). -/
theorem exec_ringConsume_count {s t : State} (hexec : exec .ringConsume s = .next t) (hready : s.ringReady = true)
    (hcount : s.count ≠ 0) : t.count + 1 = s.count := by
  rw [exec_ringConsume_ready hready hcount] at hexec
  injection hexec with ht
  rw [← ht]
  exact Nat.succ_pred_eq_of_ne_zero hcount

/-- Of the commands other than RING_CONSUME only RING_INIT writes COUNT (40_ring.md R123). -/
theorem exec_count {i : Instr} {s t : State} (hexec : exec i s = .next t) (hi : i ≠ .ringConsume) :
    t.count = s.count ∨ (t.count = 0 ∧ ∃ cap blen, i = .ringInit cap blen) := by
  cases exec_outcome hexec with
  | @ringInit cap blen => exact .inr ⟨rfl, cap, blen, rfl⟩
  | ringConsume => exact absurd rfl hi
  | _ => exact .inl rfl

/-- What is neither a push nor a RING_CONSUME leaves COUNT alone, or zeroes it as RING_INIT or reset (40_ring.md R123). -/
theorem outcome_count {s t : State} {e : Event} (hout : EventOutcome s e t) (hpush : ¬ IsPush e)
    (hconsume : ¬ Commands e .ringConsume) :
    t.count = s.count ∨ (t.count = 0 ∧ (e = .reset ∨ ∃ cap blen, Commands e (.ringInit cap blen))) := by
  cases hout with
  | @command c i _ hdecode hexec =>
    have hi : i ≠ .ringConsume := fun hi => hconsume ⟨c, rfl, hi ▸ hdecode⟩
    obtain hsame | ⟨hzero, cap, blen, rfl⟩ := exec_count hexec hi
    · exact .inl hsame
    · exact .inr ⟨hzero, .inr ⟨cap, blen, c, rfl, hdecode⟩⟩
  | push raw => exact absurd ⟨raw, rfl⟩ hpush
  | reset => exact .inr ⟨rfl, .inl rfl⟩
  | _ => exact .inl rfl

/-- Settles O27: pushes, RING_CONSUME and every other event, one lemma each. -/
theorem countMovesByOnePerPushAndConsume : Obligations.CountMovesByOnePerPushAndConsume := by
  unfold Obligations.CountMovesByOnePerPushAndConsume
  intro s t e rest hinbox hstep
  have hout := step_outcome hinbox hstep
  refine ⟨?_, ?_, outcome_count (s := { s with inbox := rest }) hout⟩
  · rintro ⟨raw, rfl⟩ hready hroom
    exact (outcome_push_count hout hready).trans (countAfterPush_of_room hroom)
  · rintro ⟨c, rfl, hdecode⟩ hready hcount
    rw [step_command hinbox hdecode] at hstep
    exact exec_ringConsume_count (s := { s with inbox := rest }) hstep hready hcount

end Sys2Proof.Proofs
end

section
/-! PROOFS. In a good state every transaction completes (60_exceptions.md R215, 70_reset_and_hazards.md R240): whatever a
command or a push reads and writes lies inside its space. -/

namespace Sys2Proof.Proofs

open Sys2Proof.Machine Sys2Proof.Safety Sys2Proof.Laws

/-- `a` is a next state: neither a fault nor a refusal. -/
def Completes (a : Answer) : Prop :=
  ∃ t : State, a = .next t

theorem completes_next (t : State) : Completes (.next t) := ⟨t, rfl⟩

theorem completes_ite {p : Prop} [Decidable p] {a b : Answer} (ha : p → Completes a) (hb : ¬ p → Completes b) :
    Completes (if p then a else b) := by
  split
  · exact ha ‹p›
  · exact hb ‹¬ p›

/-! Commands. -/

theorem output_completes {s : State} {bytes : List Byte} (hfit : bytes.length ≤ 3 * s.sizes.nMax) :
    Completes (s.output bytes) :=
  ⟨_, output_eq hfit⟩

/-- At most N_MAX samples, packed, fit OUT (20_memory.md R62, 42_format.md R184). -/
theorem packBytes_fits_out {z : Sizes} (d : OutDepth) {x : List Sample} (hx : x.length ≤ z.nMax) :
    (packBytes d x).length ≤ 3 * z.nMax := by
  rw [packBytes_length, Nat.mul_comm 3]
  exact Nat.mul_le_mul hx (outDepth_bytes_le d)

theorem rawSamples_length (s : State) (base n : Nat) : (s.rawSamples base n).length = n := by
  simp [State.rawSamples]

theorem fxpSamples_length (s : State) (n : Nat) : (s.fxpSamples n).length = n := by
  simp [State.fxpSamples]

/-- A cascade puts out no more samples than it takes in (41_filter_bank.md R153). -/
theorem cascadeOutput_length_le (s : State) (r : CascadeRate) (x : List Sample) :
    (s.cascadeOutput r x).length ≤ x.length := by
  rw [State.cascadeOutput, cascade_output_length]
  exact Nat.div_le_self _ _

/-- A block of at most BLEN bytes has at most N_MAX samples, so every route's output fits OUT (41_filter_bank.md R166). -/
theorem downsample_completes {s : State} (route : Route) (d : OutDepth) (base : Nat) {rawlen : Nat}
    (hlen : rawlen ≤ 3 * s.sizes.nMax) : Completes (s.downsample route d base rawlen) := by
  have hsamples : (s.rawSamples base (rawlen / 3)).length ≤ s.sizes.nMax := by
    rw [rawSamples_length]
    omega
  cases route with
  | identity =>
    cases d with
    | d16 => exact output_completes (packBytes_fits_out .d16 hsamples)
    | d24 => exact output_completes (by rwa [bytesAt_length])
  | cascade r =>
    have hout := (cascadeOutput_length_le s r _).trans hsamples
    exact output_completes (s := s.runCascade r _) (packBytes_fits_out d hout)
  | unsupported => exact completes_next (s.ret 0)

/-- With its error checks passed, FB_DOWNSAMPLE reads a block inside the ring (41_filter_bank.md R166). -/
theorem execFbDownsample_allowed_completes {s : State} (hinv : Inv s) {slot rawlen : Nat} (depth : Nat)
    (hallowed : DownsampleAllowed s slot rawlen) : Completes (execFbDownsample slot depth rawlen s) := by
  have hlen : rawlen ≤ 3 * s.sizes.nMax := hallowed.len_le.trans (hinv.ready hallowed.ring_ready).blen_le
  rw [execFbDownsample_allowed depth hallowed]
  cases outDepth? depth with
  | none => exact completes_next (s.ret 0)
  | some d =>
    simp only [downsample_inSpace hinv hallowed, if_true]
    exact completes_ite (fun _ => completes_next (s.ret 0)) (fun _ => downsample_completes _ d _ hlen)

theorem execFbDownsample_completes {s : State} (hinv : Inv s) (slot depth rawlen : Nat) :
    Completes (execFbDownsample slot depth rawlen s) := by
  by_cases hallowed : DownsampleAllowed s slot rawlen
  · exact execFbDownsample_allowed_completes hinv depth hallowed
  · rw [execFbDownsample]
    refine completes_ite (fun _ => completes_next _) fun hfb => completes_ite (fun _ => completes_next _) fun hring =>
      completes_ite (fun _ => completes_next _) fun hargs => absurd ?_ hallowed
    simp only [not_or, Nat.not_le, Nat.not_lt, ne_eq, not_not] at hargs
    obtain ⟨hslot, hwhole, hlen⟩ := hargs
    exact ⟨by simpa using hfb, by simpa using hring, hslot, hwhole, hlen⟩

/-- FMT_CONVERT reads COUNT words of FXP, at most N_MAX once its check has passed (42_format.md R186). -/
theorem execFmtConvert_completes (s : State) (depth count : Nat) : Completes (execFmtConvert depth count s) := by
  rw [execFmtConvert]
  refine completes_ite (fun _ => completes_next _) fun hcount => ?_
  cases outDepth? depth with
  | none => exact completes_next (s.ret 0)
  | some d =>
    have hfits : 0 + 4 * count ≤ 4 * s.sizes.nMax := by omega
    have hin : s.inSpace .fxp 0 (4 * count) = true := decide_eq_true hfits
    simp only [hin, if_true]
    exact output_completes (packBytes_fits_out d (by rw [fxpSamples_length]; omega))

/-- Every command completes in a good state; only the two that access a memory need it good. -/
theorem exec_completes {s : State} (hinv : Inv s) (i : Instr) : Completes (exec i s) := by
  cases i with
  | nop => exact completes_next _
  | ringInit cap blen =>
    exact completes_ite (fun _ => completes_next _) fun _ =>
      completes_ite (fun _ => completes_next _) fun _ => completes_next _
  | ringAvailable => exact completes_ite (fun _ => completes_next _) fun _ => completes_next _
  | ringConsume =>
    exact completes_ite (fun _ => completes_next _) fun _ =>
      completes_ite (fun _ => completes_next _) fun _ => completes_next _
  | ringOvrRead => exact completes_ite (fun _ => completes_next _) fun _ => completes_next _
  | ringOvrClear => exact completes_ite (fun _ => completes_next _) fun _ => completes_next _
  | fbInit => exact completes_next _
  | fbSetTarget rate => exact completes_next _
  | fbDownsample slot depth rawlen => exact execFbDownsample_completes hinv slot depth rawlen
  | fmtConvert depth count => exact execFmtConvert_completes s depth count

/-! Transactions. -/

theorem runCommand_completes {s : State} (hinv : Inv s) (c : Word) : Completes (runCommand c s) := by
  rw [runCommand]
  cases decode c with
  | ok i => exact exec_completes hinv i
  | error _ => exact completes_next _

theorem hostRead_completes (s : State) (addr : Word) (size : AccessSize) : Completes (hostRead addr size s) := by
  rw [hostRead]
  cases s.busTarget? addr size with
  | none => exact completes_next _
  | some target => exact completes_next _

/-- Of what a host write reaches, only CMD does more than one plain update (20_memory.md R65 to R68). -/
theorem hostWrite_completes {s : State} (hinv : Inv s) (addr : Word) (size : AccessSize) (v : Word) :
    Completes (hostWrite addr size v s) := by
  rw [hostWrite]
  split
  · exact runCommand_completes hinv v
  all_goals exact completes_next _

/-- The producer's duty (40_ring.md R116) is what a push needs beyond a good state. -/
theorem blockReady_completes {s : State} (hinv : Inv s) {raw : List Byte}
    (hduty : s.ringReady = true → raw.length = s.blen) : Completes (blockReady raw s) := by
  cases hready : s.ringReady with
  | false => exact ⟨_, blockReady_idle raw hready⟩
  | true => exact ⟨_, blockReady_ready hinv hready (hduty hready)⟩

theorem applyEvent_completes {s : State} (hinv : Inv s) (e : Event)
    (hduty : ∀ raw, e = .blockReady raw → s.ringReady = true → raw.length = s.blen) : Completes (applyEvent e s) := by
  cases e with
  | hostRead addr size => exact hostRead_completes s addr size
  | hostWrite addr size v => exact hostWrite_completes hinv addr size v
  | blockReady raw => exact blockReady_completes hinv (hduty raw rfl)
  | reset => exact completes_next s.hardwareReset

/-- With nothing pending a step changes nothing (log 3). -/
theorem step_nil {s : State} (hinbox : s.inbox = []) : step s = .next s := by
  rw [step, takeNextEvent, hinbox]

/-- Settles O51: with nothing pending nothing happens; otherwise the first event completes, in a state as good as `s`. -/
theorem goodStatesAlwaysStep : Obligations.GoodStatesAlwaysStep := by
  unfold Obligations.GoodStatesAlwaysStep
  intro s hinv hduty
  cases hinbox : s.inbox with
  | nil => exact ⟨s, step_nil hinbox⟩
  | cons e rest =>
    rw [step_cons hinbox]
    refine applyEvent_completes (inv_inbox hinv rest) e fun raw hpush hready => ?_
    exact hduty raw rest (hpush ▸ hinbox) hready

end Sys2Proof.Proofs
end

section
/-! PROOFS. The filter engine (41_filter_bank.md R145 to R155): the default FIR_REDUCE, one stage run, and a cascade
run, each over one call and over two. -/

namespace Sys2Proof.Proofs

open Sys2Proof.Machine Sys2Proof.Safety Sys2Proof.Laws

/-! The default FIR_REDUCE (41_filter_bank.md R151). -/

/-- The 64-bit wrap of an accumulator is the one number in the signed 64-bit range congruent to it. -/
theorem bmod_eq_of_congruent {acc w : Int} (hlow : -(2 ^ 63) ≤ w) (hhigh : w < 2 ^ 63)
    (hcongr : (2 ^ 64 : Int) ∣ acc - w) : acc.bmod (2 ^ 64) = w := by
  rw [Int.bmod_eq_iff (by decide)]
  norm_num at hlow hhigh hcongr ⊢
  exact ⟨hlow, hhigh, (dvd_sub_comm).mp hcongr⟩

/-- FIR_REDUCE as a number: both wraps and the floor between them. -/
theorem firReduce_toInt (acc : Int) : (firReduce acc).toInt = (acc.bmod (2 ^ 64) / 2 ^ 31).bmod (2 ^ 32) := by
  rw [firReduce, BitVec.toInt_ofInt, Int.shiftRight_eq_div_pow]
  rfl

/-- Settles O30: with the 64-bit wrap known, what is left is the 32-bit wrap of the floor, which acts on nothing where
the floor fits. -/
theorem firReduceWrapsAndFloorsEveryAccumulator : Obligations.FirReduceWrapsAndFloorsEveryAccumulator := by
  unfold Obligations.FirReduceWrapsAndFloorsEveryAccumulator
  refine ⟨reduceBy_standard, fun acc w hlow hhigh hcongr => ?_, fun acc hlow hhigh => ?_⟩
  · rw [firReduce_toInt, bmod_eq_of_congruent hlow hhigh hcongr]
    exact Int.dvd_self_sub_bmod
  · have hwrap : acc.bmod (2 ^ 64) = acc := bmod_eq_of_congruent (by omega) (by omega) (by simp)
    rw [firReduce_toInt, hwrap]
    exact Int.bmod_eq_of_le (by norm_num; omega) (by norm_num; omega)

/-! The samples a stage run reads and the history it leaves. -/

/-- The sample `j` older than input `n`, for `j < T`: an input of the call while there is one, then the history,
newest last (41_filter_bank.md R146, R147). -/
theorem extendedInput_getD {hist x : List Sample} {n j : Nat} (hj : j ≤ hist.length) :
    (hist ++ x).getD (hist.length + n - j) 0#32 =
      if j ≤ n then x.getD (n - j) 0#32 else hist.getD (hist.length - (j - n)) 0#32 := by
  split
  · rw [List.getD_append_right _ _ _ _ (by omega)]
    congr 1
    omega
  · rw [List.getD_append _ _ _ _ (by omega)]
    congr 1
    omega

theorem lastN_getD {n i : Nat} (l : List Sample) : (lastN n l).getD i 0#32 = l.getD (l.length - n + i) 0#32 := by
  rw [lastN, List.getD_eq_getElem?_getD, List.getElem?_drop, List.getD_eq_getElem?_getD]

/-- Output `k` of a stage run (41_filter_bank.md R149). -/
theorem stageOutput_getD (reduce : Int → Sample) {st : Stage} {x : List Sample} {k : Nat}
    (hk : k < x.length / factorValue st.factor) :
    (stageOutput reduce st x).getD k 0#32 = reduce (firDot st.taps (st.history ++ x)
      (st.taps.rest.length + k * factorValue st.factor + (factorValue st.factor - 1))) := by
  simp [stageOutput, hk]

/-- The dot product of a stage run at input `n`, over the inputs of the call and the history (41_filter_bank.md R147).
-/
theorem firDot_extendedInput {taps : Taps} {hist x : List Sample} (hfit : hist.length = taps.rest.length) (n : Nat) :
    firDot taps (hist ++ x) (taps.rest.length + n) = ∑ j ∈ Finset.range (taps.rest.length + 1),
      ((taps.first :: taps.rest).getD j 0#32).toInt *
        (if j ≤ n then x.getD (n - j) 0#32 else hist.getD (taps.rest.length - (j - n)) 0#32).toInt := by
  rw [firDot_eq_sum, tapsLength, ← hfit]
  refine Finset.sum_congr rfl fun j hj => ?_
  rw [extendedInput_getD (by have := Finset.mem_range.mp hj; omega), tapsList]

theorem stageHistory_getD {st : Stage} (hfit : st.history.length = st.taps.rest.length) (x : List Sample) (i : Nat) :
    (stageHistory st x).getD i 0#32 =
      if i + x.length < st.taps.rest.length then st.history.getD (i + x.length) 0#32
      else x.getD (i + x.length - st.taps.rest.length) 0#32 := by
  have hindex : (st.history ++ x).length - st.taps.rest.length + i = i + x.length := by
    rw [List.length_append]
    omega
  rw [stageHistory, lastN_getD, hindex]
  split
  · exact List.getD_append _ _ _ _ (by omega)
  · rw [List.getD_append_right _ _ _ _ (by omega), hfit]

theorem factorValue_eq_of_cases {m : Factor} {M : Nat} (h : (m = .two ∧ M = 2) ∨ (m = .three ∧ M = 3)) :
    factorValue m = M := by
  obtain ⟨rfl, rfl⟩ | ⟨rfl, rfl⟩ := h <;> rfl

/-- Settles O52: the length, each output, and the length and each sample of the history left, one lemma each. -/
theorem stageOutputsAndHistoryAreTheFirOfTheInput : Obligations.StageOutputsAndHistoryAreTheFirOfTheInput := by
  unfold Obligations.StageOutputsAndHistoryAreTheFirOfTheInput
  intro reduce st x M hfit hM
  obtain rfl := factorValue_eq_of_cases hM
  refine ⟨stageOutput_length st x, fun k hk => ?_, stageHistory_length hfit x, fun i _ => stageHistory_getD hfit x i⟩
  have hpos := factorValue_pos st.factor
  rw [stageOutput_getD reduce hk, Nat.add_assoc, ← Nat.add_sub_assoc (by omega), firDot_extendedInput hfit]

/-! One stage over two calls (41_filter_bank.md R150). -/

/-- A dot product depends on the T newest samples at its index alone (41_filter_bank.md R147). -/
theorem firDot_congr {taps : Taps} {e e' : List Sample} {p p' : Nat}
    (h : ∀ j, j ≤ taps.rest.length → e.getD (p - j) 0#32 = e'.getD (p' - j) 0#32) :
    firDot taps e p = firDot taps e' p' := by
  rw [firDot_eq_sum, firDot_eq_sum]
  refine Finset.sum_congr rfl fun j hj => ?_
  rw [h j (by have := Finset.mem_range.mp hj; rw [tapsLength] at this; omega)]

/-- What follows the first `l.length - n` samples of `l ++ y` is the last `n` of `l` and then `y`. -/
theorem lastN_append {α : Type} (n : Nat) (l y : List α) : lastN n l ++ y = (l ++ y).drop (l.length - n) := by
  rw [lastN, List.drop_append_of_le_length (Nat.sub_le _ _)]

/-- Keeping the last `n` samples of a call loses nothing the next call's history needs. -/
theorem lastN_lastN_append {α : Type} (n : Nat) (l y : List α) : lastN n (lastN n l ++ y) = lastN n (l ++ y) := by
  rw [lastN_append, lastN, lastN, List.drop_drop]
  congr 1
  simp only [List.length_drop, List.length_append]
  omega

/-- The stage as the second call finds it: with the history the first one left. -/
def stageAfter (st : Stage) (x : List Sample) : Stage :=
  { st with history := stageHistory st x }

/-- The history after two calls is the history after one (41_filter_bank.md R150). -/
theorem stageHistory_append (st : Stage) (x y : List Sample) :
    stageHistory st (x ++ y) = stageHistory (stageAfter st x) y := by
  have h := lastN_lastN_append st.taps.rest.length (st.history ++ x) y
  rw [List.append_assoc] at h
  exact h.symm

section
variable {st : Stage} {x : List Sample} (hfit : st.history.length = st.taps.rest.length)
include hfit

/-- An index inside the first call's input: the second call's input plays no part. -/
theorem firDot_first_call (y : List Sample) {n : Nat} (hn : n < x.length) :
    firDot st.taps (st.history ++ (x ++ y)) (st.taps.rest.length + n) =
      firDot st.taps (st.history ++ x) (st.taps.rest.length + n) := by
  refine firDot_congr fun j _ => ?_
  rw [← List.append_assoc, List.getD_append _ _ _ _ (by rw [List.length_append]; omega)]

/-- An index inside the second call's input: of the first call only the history it leaves matters. -/
theorem firDot_second_call (y : List Sample) (n : Nat) :
    firDot st.taps (st.history ++ (x ++ y)) (st.taps.rest.length + (x.length + n)) =
      firDot st.taps (stageHistory st x ++ y) (st.taps.rest.length + n) := by
  refine firDot_congr fun j hj => ?_
  rw [stageHistory, lastN_append, List.getD_eq_getElem?_getD, List.getD_eq_getElem?_getD, List.getElem?_drop,
    List.append_assoc, List.length_append]
  congr 2
  omega

/-- The outputs of two calls are those of one on the concatenated input, when the first call's input is a whole number
of groups: the outputs up to the seam are the first call's, the others the second's (41_filter_bank.md R150). -/
theorem stageOutput_append (reduce : Int → Sample) (y : List Sample) (hwhole : factorValue st.factor ∣ x.length) :
    stageOutput reduce st (x ++ y) = stageOutput reduce st x ++ stageOutput reduce (stageAfter st x) y := by
  obtain ⟨groups, hgroups⟩ := hwhole
  have hpos := factorValue_pos st.factor
  have hfirst : x.length / factorValue st.factor = groups := by rw [hgroups, Nat.mul_div_cancel_left _ hpos]
  have hboth : (x ++ y).length / factorValue st.factor = groups + y.length / factorValue st.factor := by
    rw [List.length_append, hgroups, Nat.mul_add_div hpos]
  rw [stageOutput, stageOutput, stageOutput, hfirst, hboth, List.range_add, List.map_append, List.map_map]
  congr 1 <;> refine List.map_congr_left fun k hk => congrArg reduce ?_
  · have hk : (k + 1) * factorValue st.factor ≤ x.length := by
      rw [hgroups, Nat.mul_comm]
      exact Nat.mul_le_mul_left _ (List.mem_range.mp hk)
    rw [Nat.add_mul] at hk
    rw [Nat.add_assoc, firDot_first_call hfit y (by omega)]
  · have hindex : (groups + k) * factorValue st.factor = x.length + k * factorValue st.factor := by
      rw [Nat.add_mul, hgroups, Nat.mul_comm groups]
    rw [hindex, Nat.add_assoc, Nat.add_assoc x.length, firDot_second_call hfit, ← Nat.add_assoc]
    rfl

end

/-- Settles O31: the outputs and the history, one lemma each. -/
theorem stageContinuity : Obligations.StageContinuity := by
  unfold Obligations.StageContinuity
  intro reduce st x y hfit hwhole
  exact ⟨stageOutput_append hfit reduce y (Nat.dvd_of_mod_eq_zero hwhole), stageHistory_append st x y⟩

/-! A cascade over two calls (41_filter_bank.md R150, R153). -/

/-- The stages with other histories, one for each. -/
def withHistories : List Stage → List (List Sample) → List Stage :=
  List.zipWith fun st h => { st with history := h }

/-- The machine keeps the histories a run left by writing them to the bank: its stages are then the old ones with these
histories. -/
theorem zipStages_withHistories {ms : List Factor} {hs : List Taps} {es es' : List (List Sample)}
    (h : es'.length = es.length) :
    zipStages ms hs es' = withHistories (zipStages ms hs es) es' := by
  induction ms generalizing hs es es' with
  | nil => simp [zipStages, withHistories]
  | cons m ms ih =>
    cases hs with
    | nil => simp [zipStages, withHistories]
    | cons t hs =>
      cases es with
      | nil =>
        obtain rfl := List.length_eq_zero_iff.mp h
        rfl
      | cons e es =>
        cases es' with
        | nil => simp at h
        | cons e' es' => exact congrArg _ (ih (Nat.succ.inj h))

theorem stagesWith_bankPut (p : FilterParams) (hist : Bank (List Sample)) (r : CascadeRate) {hs : List (List Sample)}
    (h : hs.length = stageCount r) :
    stagesWith p (bankPut hist r hs) r = withHistories (stagesWith p hist r) hs := by
  rw [stagesWith, bankGet_bankPut_same _ _ h, stagesWith]
  exact zipStages_withHistories (by rw [h, bankGet_length])

/-- A cascade run over two calls, with the histories of the first kept for the second, is the run over the concatenated
input when the first call's sample count is a multiple of the product of the factors: stage by stage, each output of the
first call is again a whole number of groups for the next stage. -/
theorem cascadeRun_append (reduce : Int → Sample) {l : List Stage}
    (hfit : ∀ st ∈ l, st.history.length = st.taps.rest.length) {x : List Sample} (y : List Sample)
    (hwhole : (l.map fun st => factorValue st.factor).prod ∣ x.length) :
    cascadeRun reduce l (x ++ y) =
      ((cascadeRun reduce (withHistories l (cascadeRun reduce l x).1) y).1,
        (cascadeRun reduce l x).2 ++ (cascadeRun reduce (withHistories l (cascadeRun reduce l x).1) y).2) := by
  induction l generalizing x y with
  | nil => rfl
  | cons st l ih =>
    rw [List.map_cons, List.prod_cons] at hwhole
    have hgroups : factorValue st.factor ∣ x.length := dvd_of_mul_right_dvd hwhole
    have hnext : (l.map fun st => factorValue st.factor).prod ∣ (stageOutput reduce st x).length := by
      rw [stageOutput_length]
      exact (Nat.dvd_div_iff_mul_dvd hgroups).mpr hwhole
    have hrest := fun st' hst' => hfit st' (List.mem_cons_of_mem st hst')
    have ih := ih hrest (stageOutput reduce (stageAfter st x) y) hnext
    simp only [cascadeRun, stageHistory_append, stageOutput_append (hfit st List.mem_cons_self) reduce y hgroups, ih]
    rfl

/-- Settles O32: the stages of the second call are those of the first with the histories it left. -/
theorem cascadeContinuity : Obligations.CascadeContinuity := by
  unfold Obligations.CascadeContinuity
  intro reduce p hist r x y hfit hwhole
  have hprod : ((stagesWith p hist r).map fun st => factorValue st.factor).prod = divisor r := by
    rw [← cascadeFactors_prod p r, ← stagesWith_factors p hist r, List.map_map]
    rfl
  have hrun := cascadeRun_append reduce (stagesWith_fit hfit r) y (hprod ▸ Nat.dvd_of_mod_eq_zero hwhole)
  refine ⟨_, rfl, ?_⟩
  rw [stagesWith_bankPut p hist r (by rw [cascadeRun_histories_length, stagesWith_length]), hrun]
  exact ⟨rfl, rfl⟩

/-! The stages of a cascade in order (41_filter_bank.md R152, R155). -/

/-- `n` stages that decimate by 2, but for one at place `i` that decimates by 3. -/
theorem replicate_set_three_getElem? {size i n : Nat} (hn : n < size) :
    ((List.replicate size Factor.two).set i .three)[n]? = some (if n = i then .three else .two) := by
  have hlen : n < (List.replicate size Factor.two).length := by rwa [List.length_replicate]
  rw [List.getElem?_set]
  split
  · rw [‹i = n›, if_pos hlen, if_pos rfl]
  · rw [if_neg (Ne.symm ‹_›), List.getElem?_replicate_of_lt hn]

/-- Stage `n` of a cascade decimates by 3 at the place the parameters name for native/12 and native/24, by 2
elsewhere. -/
theorem cascadeFactors_getElem? (p : FilterParams) {r : CascadeRate} {n : Nat} (hn : n < stageCount r) :
    (cascadeFactors p r)[n]? = some
      (if (r = .div12 ∧ n = p.pos3Div12.val) ∨ (r = .div24 ∧ n = p.pos3Div24.val) then .three else .two) := by
  cases r with
  | div12 => exact (replicate_set_three_getElem? (i := p.pos3Div12.val) hn).trans (by simp)
  | div24 => exact (replicate_set_three_getElem? (i := p.pos3Div24.val) hn).trans (by simp)
  | div2 => exact (List.getElem?_replicate_of_lt (a := Factor.two) hn).trans (by simp)
  | div4 => exact (List.getElem?_replicate_of_lt (a := Factor.two) hn).trans (by simp)
  | div8 => exact (List.getElem?_replicate_of_lt (a := Factor.two) hn).trans (by simp)
  | div16 => exact (List.getElem?_replicate_of_lt (a := Factor.two) hn).trans (by simp)

/-- Stage `n` of a cascade has the factor, the coefficients and the history at place `n` of their tables. -/
theorem stagesWith_getElem? {p : FilterParams} {hist : Bank (List Sample)} {r : CascadeRate} {n : Nat} {st : Stage}
    (h : (stagesWith p hist r)[n]? = some st) :
    (cascadeFactors p r)[n]? = some st.factor ∧ (bankGet p.coef r)[n]? = some st.taps ∧
      (bankGet hist r)[n]? = some st.history := by
  have hmap {α : Type} {f : Stage → α} {l : List α} (hl : (stagesWith p hist r).map f = l) : l[n]? = some (f st) := by
    rw [← hl, List.getElem?_map, h, Option.map_some]
  exact ⟨hmap (stagesWith_factors p hist r), hmap (stagesWith_taps p hist r), hmap (stagesWith_histories p hist r)⟩

theorem stageCount_of_mem {r : CascadeRate} {S : Nat}
    (h : (r, S) ∈ [(CascadeRate.div2, 1), (.div4, 2), (.div8, 3), (.div12, 3), (.div16, 4), (.div24, 4)]) :
    stageCount r = S := by
  cases r <;> simpa [stageCount, eq_comm] using h

/-- Settles O53: the sequences are those of the run over the cascade's list of stages. -/
theorem cascadeRunsItsStagesInOrder : Obligations.CascadeRunsItsStagesInOrder := by
  unfold Obligations.CascadeRunsItsStagesInOrder
  intro reduce p hist r S x hS
  obtain rfl := stageCount_of_mem hS
  obtain ⟨v, hfirst, hlast, hstages⟩ := cascadeRun_stages (reduce := reduce) (stagesWith p hist r) x
  rw [stagesWith_length] at hlast
  refine ⟨v, hfirst, hlast, by rw [cascadeRun_histories_length, stagesWith_length], fun n hn => ?_⟩
  obtain ⟨st, hst⟩ : ∃ st, (stagesWith p hist r)[n]? = some st :=
    ⟨_, List.getElem?_eq_getElem (by rwa [stagesWith_length])⟩
  obtain ⟨hfactor, htaps, hhistory⟩ := stagesWith_getElem? hst
  obtain ⟨houtput, hleft⟩ := hstages n st hst
  rw [cascadeFactors_getElem? p hn] at hfactor
  exact ⟨st, (Option.some.inj hfactor).symm, htaps, hhistory, houtput, hleft⟩

end Sys2Proof.Proofs
end

section
/-! PROOFS. The filter bank's commands (41_filter_bank.md R160 to R170): FB_INIT, FB_SET_TARGET, the checks of
FB_DOWNSAMPLE, what it puts out at each rate and depth, and who writes the filter state. -/

namespace Sys2Proof.Proofs

open Sys2Proof.Machine Sys2Proof.Safety Sys2Proof.Laws

/-! FB_INIT and FB_SET_TARGET. -/

/-- Settles O14: the histories are `zeroHistories`, read back cascade by cascade. -/
theorem fbInitZeroesEveryHistory : Obligations.FbInitZeroesEveryHistory := by
  unfold Obligations.FbInitZeroesEveryHistory
  exact ⟨by decide, fun s => ⟨zeroHistories s.filter.coef, rfl, bankGet_zeroHistories s.filter.coef⟩⟩

theorem exec_fbSetTarget_eq (s : State) (rate : RateCode) :
    exec (.fbSetTarget rate) s = .next { s with target := rate, result := 0#32 } := rfl

/-- Settles O15: the word has the code, three bits wide, above the opcode. -/
theorem fbSetTargetWritesOnlyTarget : Obligations.FbSetTargetWritesOnlyTarget := by
  unfold Obligations.FbSetTargetWritesOnlyTarget
  refine ⟨fun rate => ?_, exec_fbSetTarget_eq⟩
  cases rate <;> decide

/-! The checks of FB_DOWNSAMPLE (41_filter_bank.md R165, R166, 60_exceptions.md R207). -/

theorem raise_fbUninit (s : State) :
    s.raise .fbUninit = { s with errors := s.errors ||| 0b0000100#7, result := 0xFFFFFFFF#32 } := rfl

section
variable {s : State} {slot rawlen : Nat} (depth : Nat)

theorem exec_fbDownsample_fbUninit (slot rawlen : Nat) (hfb : s.fbReady = false) :
    exec (.fbDownsample slot depth rawlen) s = .next (s.raise .fbUninit) :=
  if_pos hfb

theorem exec_fbDownsample_ringUninit (slot rawlen : Nat) (hfb : s.fbReady = true) (hring : s.ringReady = false) :
    exec (.fbDownsample slot depth rawlen) s = .next (s.raise .ringUninit) :=
  (if_neg (by simp [hfb])).trans (if_pos hring)

theorem exec_fbDownsample_arg (hfb : s.fbReady = true) (hring : s.ringReady = true)
    (hargs : s.k ≤ slot ∨ rawlen % 3 ≠ 0 ∨ s.blen < rawlen) :
    exec (.fbDownsample slot depth rawlen) s = .next (s.raise .arg) :=
  (if_neg (by simp [hfb])).trans ((if_neg (not_ringReady_false hring)).trans (if_pos hargs))

/-- Where a check fails FB_DOWNSAMPLE raises an error and does nothing else, whatever DEPTH and TARGET. -/
theorem exec_fbDownsample_refused (hrefused : ¬ DownsampleAllowed s slot rawlen) :
    ∃ e, exec (.fbDownsample slot depth rawlen) s = .next (s.raise e) := by
  cases hfb : s.fbReady with
  | false => exact ⟨_, exec_fbDownsample_fbUninit depth slot rawlen hfb⟩
  | true =>
    cases hring : s.ringReady with
    | false => exact ⟨_, exec_fbDownsample_ringUninit depth slot rawlen hfb hring⟩
    | true =>
      refine ⟨_, exec_fbDownsample_arg depth hfb hring ?_⟩
      by_contra hargs
      exact hrefused ⟨hfb, hring, by omega, by omega, by omega⟩

end

/-- A depth other than 16 and 24, with the checks passed (41_filter_bank.md R165). -/
theorem exec_fbDownsample_unsupportedDepth {s : State} {slot depth rawlen : Nat}
    (hallowed : DownsampleAllowed s slot rawlen) (hdepth : outDepth? depth = none) :
    exec (.fbDownsample slot depth rawlen) s = .next (s.ret 0) := by
  rw [exec_fbDownsample, execFbDownsample_allowed depth hallowed, hdepth]

/-- Rate code 7, with the checks passed (41_filter_bank.md R165). -/
theorem exec_fbDownsample_unsupportedRate {s : State} {slot rawlen : Nat} (depth : Nat)
    (hallowed : DownsampleAllowed s slot rawlen) (htarget : s.target = .reserved) :
    exec (.fbDownsample slot depth rawlen) s = .next (s.ret 0) := by
  rw [exec_fbDownsample, execFbDownsample_allowed depth hallowed, htarget]
  cases outDepth? depth <;> rfl

theorem outDepth?_eq_none {depth : Nat} (h16 : depth ≠ 16) (h24 : depth ≠ 24) : outDepth? depth = none := by
  rw [outDepth?, if_neg h16, if_neg h24]

/-- The two supported depths, with their bytes per sample (30_encoding.md R98). -/
theorem outDepth?_of_depthBytes {depth b : Nat} (h : DepthBytes depth b) :
    ∃ d, outDepth? depth = some d ∧ b = d.bytes := by
  obtain ⟨rfl, rfl⟩ | ⟨rfl, rfl⟩ := h
  · exact ⟨.d16, rfl, rfl⟩
  · exact ⟨.d24, rfl, rfl⟩

/-- Settles O16: one lemma per check, in the order of the checks. -/
theorem downsampleErrorsInOrder : Obligations.DownsampleErrorsInOrder := by
  unfold Obligations.DownsampleErrorsInOrder
  intro s slot depth rawlen
  refine ⟨fun hfb => ?_, fun hfb hring => ?_, fun hfb hring hargs => ?_⟩
  · rw [exec_fbDownsample_fbUninit depth slot rawlen hfb, raise_fbUninit]
  · rw [exec_fbDownsample_ringUninit depth slot rawlen hfb hring, raise_ringUninit]
  · rw [exec_fbDownsample_arg depth hfb hring hargs, raise_arg]

/-- Settles O17: the rate and the depth, one lemma each. -/
theorem unsupportedCombinationIsNoOp : Obligations.UnsupportedCombinationIsNoOp := by
  unfold Obligations.UnsupportedCombinationIsNoOp
  rintro s slot depth rawlen hallowed (htarget | ⟨h16, h24⟩)
  · exact exec_fbDownsample_unsupportedRate depth hallowed htarget
  · exact exec_fbDownsample_unsupportedDepth hallowed (outDepth?_eq_none h16 h24)

/-! The samples of a block and the bytes they pack to (42_format.md R181 to R184). -/

/-- Byte `c` of a little-endian number read from a space (00_scope.md R14). -/
theorem memRead_byte (s : State) (sp : Space) (a : Nat) {n c : Nat} (hc : c < n) :
    BitVec.ofNat 8 (s.memRead sp a n / 256 ^ c) = s.byteAt sp (a + c) := by
  have hbytes := leBytes_leNat (s.bytesAt sp a n)
  rw [bytesAt_length] at hbytes
  rw [← leBytes_getD hc, State.memRead, hbytes, bytesAt_getD s sp hc]

/-- A raw sample read as a number fits its 24 bits. -/
theorem ofNat_memRead_toNat (s : State) (sp : Space) (a : Nat) :
    (BitVec.ofNat 24 (s.memRead sp a 3)).toNat = s.memRead sp a 3 := by
  have hlt := leNat_lt (s.bytesAt sp a 3)
  rw [bytesAt_length] at hlt
  rw [BitVec.toNat_ofNat]
  exact Nat.mod_eq_of_lt hlt

/-- A widened sample has the three bytes of the ring at its top, most significant first (42_format.md R181). -/
theorem widen24_memRead (s : State) (sp : Space) (a : Nat) :
    widen24 (BitVec.ofNat 24 (s.memRead sp a 3)) =
      s.byteAt sp (a + 2) ++ s.byteAt sp (a + 1) ++ s.byteAt sp a ++ 0#8 := by
  have hnumber : s.memRead sp a 3 =
      (s.byteAt sp a).toNat + 256 * ((s.byteAt sp (a + 1)).toNat + 256 * (s.byteAt sp (a + 2)).toNat) := by
    simp [State.memRead, State.bytesAt, List.range_succ, leNat]
  apply BitVec.eq_of_toNat_eq
  rw [widen24_toNat, ofNat_memRead_toNat, hnumber]
  simp only [toNat_append_eq_add, BitVec.toNat_ofNat]
  omega

theorem rawSamples_getD (s : State) (base : Nat) {n i : Nat} (hi : i < n) :
    (s.rawSamples base n).getD i 0#32 = widen24 (BitVec.ofNat 24 (s.memRead .ring (base + 3 * i) 3)) := by
  simp [State.rawSamples, hi]

/-- A packed sample of the native rate is the most significant bytes of the ring's sample: all three at depth 24, the
upper two at depth 16 (41_filter_bank.md R167, R168). -/
theorem packBytes_rawSamples_getD (s : State) (d : OutDepth) (base : Nat) {n i c : Nat} (hi : i < n)
    (hc : c < d.bytes) :
    (packBytes d (s.rawSamples base n)).getD (i * d.bytes + c) 0#8 =
      s.byteAt .ring (base + 3 * i + (3 - d.bytes + c)) := by
  have hbytes := outDepth_bytes_le d
  have hpow : 256 ^ (4 - d.bytes + c) = 256 * 256 ^ (3 - d.bytes + c) := by
    rw [← pow_succ']
    congr 1
    omega
  rw [packBytes_getD d (by rwa [rawSamples_length]) hc, packSample_getD d _ hc, rawSamples_getD s base hi,
    widen24_toNat, ofNat_memRead_toNat, hpow, ← Nat.div_div_eq_div_mul, Nat.mul_div_cancel _ (by decide),
    memRead_byte s .ring _ (by omega)]

/-- Widening and packing at depth 24 gives the block's bytes back (41_filter_bank.md R167). -/
theorem packBytes_d24_rawSamples (s : State) (base : Nat) {rawlen : Nat} (hwhole : rawlen % 3 = 0) :
    packBytes .d24 (s.rawSamples base (rawlen / 3)) = s.bytesAt .ring base rawlen := by
  apply List.ext_getElem
  · rw [packBytes_length, rawSamples_length, bytesAt_length, OutDepth.bytes]
    omega
  · intro a hpacked hblock
    have ha : a < rawlen := by rwa [bytesAt_length] at hblock
    have hindex : a / 3 * OutDepth.d24.bytes + a % 3 = a := by
      rw [OutDepth.bytes]
      omega
    have hbyte := packBytes_rawSamples_getD s .d24 base (n := rawlen / 3) (i := a / 3) (c := a % 3) (by omega)
      (Nat.mod_lt _ (by decide))
    rw [hindex] at hbyte
    rw [← List.getD_eq_getElem _ 0#8 hpacked, ← List.getD_eq_getElem _ 0#8 hblock, hbyte, bytesAt_getD s .ring ha]
    congr 1
    rw [OutDepth.bytes]
    omega

/-! What FB_DOWNSAMPLE leaves once its checks have passed (41_filter_bank.md R164 to R170). -/

/-- The samples a route puts out for the widened block `x`. -/
def routeOutput (s : State) (route : Route) (x : List Sample) : List Sample :=
  match route with
  | .identity => x
  | .cascade r => s.cascadeOutput r x
  | .unsupported => []

/-- The histories a route leaves (41_filter_bank.md R154). -/
def routeHistories (s : State) (route : Route) (x : List Sample) : Bank (List Sample) :=
  match route with
  | .identity => s.hist
  | .cascade r => (s.runCascade r x).hist
  | .unsupported => s.hist

/-- The state after the work of FB_DOWNSAMPLE on a route, with samples packed at depth `d`; `downsample_eq` ties it to
the model. A route without output packs no sample. -/
def downsampled (s : State) (route : Route) (d : OutDepth) (base rawlen : Nat) : State :=
  { s with
    outMem := s.outMem.store 0 (packBytes d (routeOutput s route (s.rawSamples base (rawlen / 3))))
    hist := routeHistories s route (s.rawSamples base (rawlen / 3))
    result := BitVec.ofNat 32 ((routeOutput s route (s.rawSamples base (rawlen / 3))).length * d.bytes) }

theorem memory_store_nil (m : Memory) : m.store 0 [] = m := by
  simp [Memory.store, Memory.cells]

theorem routeOutput_length_le (s : State) (route : Route) (x : List Sample) :
    (routeOutput s route x).length ≤ x.length := by
  cases route with
  | identity => exact le_rfl
  | cascade r => exact cascadeOutput_length_le s r x
  | unsupported => exact Nat.zero_le _

/-- One rule for every route and depth: in particular the copy of native, depth 24, is a packing like the others. -/
theorem downsample_eq {s : State} (route : Route) (d : OutDepth) (base : Nat) {rawlen : Nat} (hwhole : rawlen % 3 = 0)
    (hlen : rawlen ≤ 3 * s.sizes.nMax) :
    s.downsample route d base rawlen = .next (downsampled s route d base rawlen) := by
  have hfit : (packBytes d (routeOutput s route (s.rawSamples base (rawlen / 3)))).length ≤ 3 * s.sizes.nMax := by
    refine packBytes_fits_out d ((routeOutput_length_le s route _).trans ?_)
    rw [rawSamples_length]
    omega
  rw [downsampled, ← packBytes_length]
  cases route with
  | identity =>
    cases d with
    | d16 => exact output_eq hfit
    | d24 =>
      rw [State.downsample, ← packBytes_d24_rawSamples s base hwhole]
      exact output_eq hfit
  | cascade r => exact output_eq (s := s.runCascade r _) hfit
  | unsupported =>
    have hnone : packBytes d (routeOutput s .unsupported (s.rawSamples base (rawlen / 3))) = [] := rfl
    rw [hnone, memory_store_nil]
    rfl

/-- FB_DOWNSAMPLE at a supported depth, with the checks passed (41_filter_bank.md R166). -/
theorem exec_fbDownsample_eq_downsampled {s : State} {slot depth rawlen : Nat} {d : OutDepth} (hinv : Inv s)
    (hallowed : DownsampleAllowed s slot rawlen) (hdepth : outDepth? depth = some d) :
    exec (.fbDownsample slot depth rawlen) s =
      .next (downsampled s (routeOf s.target) d (slotBase s.sizes slot) rawlen) := by
  have hlen : rawlen ≤ 3 * s.sizes.nMax := hallowed.len_le.trans (hinv.ready hallowed.ring_ready).blen_le
  rw [← downsample_eq _ d _ hallowed.whole hlen, exec_fbDownsample]
  by_cases hroute : routeOf s.target = .unsupported
  · rw [execFbDownsample_allowed depth hallowed, hdepth, hroute]
    rfl
  · exact execFbDownsample_supported hinv hallowed hdepth hroute

/-! The bytes of OUT after output. -/

theorem byteAt_output (s : State) (bytes : List Byte) (a : Nat) :
    State.byteAt { s with outMem := s.outMem.store 0 bytes } .out a =
      if a < bytes.length then bytes.getD a 0#8 else s.byteAt .out a := by
  refine (byteAt_store s .out .out 0 bytes a).trans ?_
  simp

theorem byteAt_output_inside (s : State) {bytes : List Byte} {a : Nat} (ha : a < bytes.length) :
    State.byteAt { s with outMem := s.outMem.store 0 bytes } .out a = bytes.getD a 0#8 := by
  rw [byteAt_output, if_pos ha]

theorem byteAt_output_outside (s : State) {bytes : List Byte} {a : Nat} (ha : bytes.length ≤ a) :
    State.byteAt { s with outMem := s.outMem.store 0 bytes } .out a = s.byteAt .out a := by
  rw [byteAt_output, if_neg (by omega)]

/-- Byte `c` of sample `i` is a byte of the packed output. -/
theorem packed_index_lt (d : OutDepth) {x : List Sample} {i c : Nat} (hi : i < x.length) (hc : c < d.bytes) :
    i * d.bytes + c < (packBytes d x).length := by
  have hrow : (i + 1) * d.bytes ≤ x.length * d.bytes := Nat.mul_le_mul_right _ hi
  rw [Nat.add_mul] at hrow
  rw [packBytes_length]
  omega

/-- Byte `c` of sample `i` in OUT is one of the top bytes of the sample (42_format.md R182 to R184). -/
theorem byteAt_output_packed (s : State) (d : OutDepth) {x : List Sample} {i c : Nat} (hi : i < x.length)
    (hc : c < d.bytes) :
    State.byteAt { s with outMem := s.outMem.store 0 (packBytes d x) } .out (i * d.bytes + c) =
      BitVec.ofNat 8 ((x.getD i 0#32).toNat / 256 ^ (4 - d.bytes + c)) := by
  rw [byteAt_output_inside s (packed_index_lt d hi hc), packBytes_getD d hi hc, packSample_getD d _ hc]

/-- Byte `c` of sample `i` in OUT at the native rate (41_filter_bank.md R167, R168). -/
theorem byteAt_output_rawSamples (s : State) (d : OutDepth) (base : Nat) {n i c : Nat} (hi : i < n)
    (hc : c < d.bytes) :
    State.byteAt { s with outMem := s.outMem.store 0 (packBytes d (s.rawSamples base n)) } .out (i * d.bytes + c) =
      s.byteAt .ring (base + 3 * i + (3 - d.bytes + c)) := by
  rw [byteAt_output_inside s (packed_index_lt d (by rwa [rawSamples_length]) hc),
    packBytes_rawSamples_getD s d base hi hc]

/-- The native rate puts out the widened block itself and touches no history (41_filter_bank.md R167, R168). -/
theorem exec_fbDownsample_native {s : State} {slot depth rawlen : Nat} {d : OutDepth} (hinv : Inv s)
    (hallowed : DownsampleAllowed s slot rawlen) (hdepth : outDepth? depth = some d) (htarget : s.target = .native) :
    exec (.fbDownsample slot depth rawlen) s = .next { s with
      outMem := s.outMem.store 0 (packBytes d (s.rawSamples (slotBase s.sizes slot) (rawlen / 3)))
      result := BitVec.ofNat 32 (rawlen / 3 * d.bytes) } := by
  have hroute : routeOf s.target = .identity := by rw [htarget, routeOf]
  rw [exec_fbDownsample_eq_downsampled hinv hallowed hdepth, hroute, downsampled, routeOutput, rawSamples_length,
    routeHistories]

/-- Settles O18: packing at depth 24 is the identity on the block, so OUT gets the slot's bytes. -/
theorem nativeDepth24IsIdentity : Obligations.NativeDepth24IsIdentity := by
  unfold Obligations.NativeDepth24IsIdentity
  intro s slot rawlen hinv hallowed htarget
  have hblock := packBytes_d24_rawSamples s (slotBase s.sizes slot) hallowed.whole
  have hcount : rawlen / 3 * OutDepth.d24.bytes = rawlen := Nat.div_mul_cancel (Nat.dvd_of_mod_eq_zero hallowed.whole)
  have hexec := exec_fbDownsample_native hinv hallowed (depth := 24) rfl htarget
  rw [hblock, hcount] at hexec
  refine ⟨_, hexec, fun a ha => ?_, fun a ha => byteAt_output_outside s (by rwa [bytesAt_length]), hblock⟩
  exact (byteAt_output_inside s (by rwa [bytesAt_length])).trans (bytesAt_getD s .ring ha)

/-- Settles O19: of each sample, packing at depth 16 leaves out byte 0. -/
theorem nativeDepth16KeepsTopTwoBytes : Obligations.NativeDepth16KeepsTopTwoBytes := by
  unfold Obligations.NativeDepth16KeepsTopTwoBytes
  intro s slot rawlen hinv hallowed htarget
  have hexec := exec_fbDownsample_native hinv hallowed (depth := 16) rfl htarget
  refine ⟨_, hexec, fun i hi => ?_, fun a ha => ?_⟩
  · have hbyte {c : Nat} (hc : c < 2) := byteAt_output_rawSamples s .d16 (slotBase s.sizes slot) hi hc
    rw [OutDepth.bytes, Nat.mul_comm] at hbyte
    exact ⟨hbyte (c := 0) (by decide), hbyte (c := 1) (by decide)⟩
  · exact byteAt_output_outside s (by rwa [packBytes_length, rawSamples_length])

/-! Through a cascade. -/

/-- The widened block, byte by byte (41_filter_bank.md R166 step 1). -/
theorem rawSamples_eq_bytes (s : State) (base n : Nat) :
    s.rawSamples base n = (List.range n).map fun i =>
      s.byteAt .ring (base + 3 * i + 2) ++ s.byteAt .ring (base + 3 * i + 1) ++ s.byteAt .ring (base + 3 * i) ++ 0#8 :=
  List.map_congr_left fun i _ => widen24_memRead s .ring (base + 3 * i)

/-- A route writes the histories of its own cascade alone (41_filter_bank.md R154). -/
theorem bankGet_routeHistories_other (s : State) {route : Route} {r : CascadeRate} (h : route ≠ .cascade r)
    (x : List Sample) : bankGet (routeHistories s route x) r = bankGet s.hist r := by
  cases route with
  | identity => rfl
  | cascade r' => exact bankGet_bankPut_other s.hist (fun hr => h (by rw [hr])) _
  | unsupported => rfl

/-- A cascade's route leaves the histories of the run (41_filter_bank.md R152). -/
theorem bankGet_routeHistories_cascade (s : State) (r : CascadeRate) (x : List Sample) :
    bankGet (routeHistories s (.cascade r) x) r =
      (cascadeRun (reduceBy s.filter.reduce) (stagesWith s.filter s.hist r) x).1 :=
  bankGet_bankPut_same s.hist r (by rw [cascadeRun_histories_length, stagesWith_length])

/-- Settles O20: OUT gets the packed output of the run, each byte one of the top bytes of its sample. -/
theorem cascadeDownsampleWritesCascadeOutput : Obligations.CascadeDownsampleWritesCascadeOutput := by
  unfold Obligations.CascadeDownsampleWritesCascadeOutput
  intro s slot depth b rawlen r hinv hallowed hdepth hroute
  obtain ⟨d, hd, rfl⟩ := outDepth?_of_depthBytes hdepth
  have hexec := exec_fbDownsample_eq_downsampled hinv hallowed hd
  rw [hroute, downsampled, routeOutput] at hexec
  refine ⟨_, _, _, _, rawSamples_eq_bytes s _ _, rfl, bankGet_routeHistories_cascade s r _, hexec,
    fun i c hi hc => byteAt_output_packed s d hi hc, fun a ha => byteAt_output_outside s (by rwa [packBytes_length]),
    fun r' hr' => bankGet_routeHistories_other s (fun h => hr' (Route.cascade.inj h).symm) _⟩

/-! Every supported combination. -/

/-- The output length law (41_filter_bank.md R169). -/
theorem routeOutput_length (s : State) {rate : RateCode} (hrate : rate ≠ .reserved) (x : List Sample) :
    (routeOutput s (routeOf rate) x).length = x.length / rateDivisor rate := by
  cases rate with
  | native => exact (Nat.div_one _).symm
  | reserved => exact absurd rfl hrate
  | _ => exact cascade_output_length s.filter s.hist _ x

/-- Settles O21: the length of the route's output, packed, and the frame of the packing. -/
theorem downsampleLengthLawAndFrame : Obligations.DownsampleLengthLawAndFrame := by
  unfold Obligations.DownsampleLengthLawAndFrame
  intro s slot depth b rawlen hinv hallowed hdepth htarget
  obtain ⟨d, hd, rfl⟩ := outDepth?_of_depthBytes hdepth
  have hlength := routeOutput_length s htarget (s.rawSamples (slotBase s.sizes slot) (rawlen / 3))
  rw [rawSamples_length] at hlength
  have hexec := exec_fbDownsample_eq_downsampled hinv hallowed hd
  rw [downsampled, hlength] at hexec
  exact ⟨_, _, hexec, fun a ha => byteAt_output_outside s (by rwa [packBytes_length, hlength]),
    fun r hr => bankGet_routeHistories_other s hr _⟩

/-! Who writes the filter state (41_filter_bank.md R161, 10_state.md R36, R37). -/

/-- The commands that write a history, FB_READY and TARGET. -/
theorem exec_filterState {i : Instr} {s t : State} (hexec : exec i s = .next t) :
    (t.hist = s.hist ∨ i = .fbInit ∨ ∃ slot depth rawlen, i = .fbDownsample slot depth rawlen) ∧
    (t.fbReady = s.fbReady ∨ i = .fbInit) ∧
    (t.target = s.target ∨ ∃ rate, i = .fbSetTarget rate) := by
  cases exec_outcome hexec with
  | fbInit => exact ⟨.inr (.inl rfl), .inr rfl, .inl rfl⟩
  | fbSetTarget rate => exact ⟨.inl rfl, .inl rfl, .inr ⟨rate, rfl⟩⟩
  | downsampleCascade slot depth rawlen => exact ⟨.inr (.inr ⟨slot, depth, rawlen, rfl⟩), .inl rfl, .inl rfl⟩
  | _ => exact ⟨.inl rfl, .inl rfl, .inl rfl⟩

/-- Settles O46: a command has its writers, and no other transaction but reset writes the filter state. -/
theorem filterStateHasItsWriters : Obligations.FilterStateHasItsWriters := by
  unfold Obligations.FilterStateHasItsWriters
  intro s t e rest hinbox hstep hreset
  cases step_outcome hinbox hstep with
  | @command c i _ hdecode hexec =>
    obtain ⟨hhist, hready, htarget⟩ := exec_filterState hexec
    refine ⟨fun h => ?_, fun h => ?_, fun h => ?_⟩
    · obtain rfl | ⟨slot, depth, rawlen, rfl⟩ := hhist.resolve_left h
      · exact .inl ⟨c, rfl, hdecode⟩
      · exact .inr ⟨slot, depth, rawlen, c, rfl, hdecode⟩
    · obtain rfl := hready.resolve_left h
      exact ⟨c, rfl, hdecode⟩
    · obtain ⟨rate, rfl⟩ := htarget.resolve_left h
      exact ⟨rate, c, rfl, hdecode⟩
  | reset => exact absurd rfl hreset
  | _ => exact ⟨fun h => absurd (by simp) h, fun h => absurd (by simp) h, fun h => absurd (by simp) h⟩

end Sys2Proof.Proofs
end

section
/-! PROOFS. The switching law of the filter bank (41_filter_bank.md R154, R163): what FB_DOWNSAMPLE reads, what it
keeps, and that a detour over another rate is not seen. -/

namespace Sys2Proof.Proofs

open Sys2Proof.Machine Sys2Proof.Safety Sys2Proof.Laws

/-- `t` has of `s` all that FB_DOWNSAMPLE at rate `a` reads but TARGET: parameters, readiness, ring registers, the
ring's bytes, and the histories of the rate's own cascade. -/
structure SameInputs (a : RateCode) (s t : State) : Prop where
  sizes : t.sizes = s.sizes
  filter : t.filter = s.filter
  fbReady : t.fbReady = s.fbReady
  ringReady : t.ringReady = s.ringReady
  k : t.k = s.k
  blen : t.blen = s.blen
  ringMem : t.ringMem = s.ringMem
  resets : t.resets = s.resets
  histories : ∀ r, routeOf a = .cascade r → bankGet t.hist r = bankGet s.hist r

theorem SameInputs.trans {a : RateCode} {s t u : State} (hst : SameInputs a s t) (htu : SameInputs a t u) :
    SameInputs a s u where
  sizes := htu.sizes.trans hst.sizes
  filter := htu.filter.trans hst.filter
  fbReady := htu.fbReady.trans hst.fbReady
  ringReady := htu.ringReady.trans hst.ringReady
  k := htu.k.trans hst.k
  blen := htu.blen.trans hst.blen
  ringMem := htu.ringMem.trans hst.ringMem
  resets := htu.resets.trans hst.resets
  histories r hr := (htu.histories r hr).trans (hst.histories r hr)

theorem sameInputs_raise (a : RateCode) (s : State) (e : ErrorCause) : SameInputs a s (s.raise e) :=
  ⟨rfl, rfl, rfl, rfl, rfl, rfl, rfl, rfl, fun _ _ => rfl⟩

theorem sameInputs_ret (a : RateCode) (s : State) (v : Nat) : SameInputs a s (s.ret v) :=
  ⟨rfl, rfl, rfl, rfl, rfl, rfl, rfl, rfl, fun _ _ => rfl⟩

/-- FB_SET_TARGET touches none of it (41_filter_bank.md R162). -/
theorem sameInputs_setTarget (a : RateCode) (s : State) (rate : RateCode) :
    SameInputs a s { s with target := rate, result := 0#32 } :=
  ⟨rfl, rfl, rfl, rfl, rfl, rfl, rfl, rfl, fun _ _ => rfl⟩

/-- Output at a route that is not the rate's cascade leaves its histories alone (41_filter_bank.md R154). -/
theorem sameInputs_downsampled {a : RateCode} (s : State) {route : Route}
    (hroute : ∀ r, routeOf a = .cascade r → route ≠ .cascade r) (d : OutDepth) (base rawlen : Nat) :
    SameInputs a s (downsampled s route d base rawlen) :=
  ⟨rfl, rfl, rfl, rfl, rfl, rfl, rfl, rfl, fun r hr => bankGet_routeHistories_other s (hroute r hr) _⟩

/-- The rate a route belongs to (30_encoding.md R97). -/
def rateOfRoute : Route → RateCode
  | .identity => .native
  | .cascade .div2 => .div2
  | .cascade .div4 => .div4
  | .cascade .div8 => .div8
  | .cascade .div12 => .div12
  | .cascade .div16 => .div16
  | .cascade .div24 => .div24
  | .unsupported => .reserved

theorem rateOfRoute_routeOf (a : RateCode) : rateOfRoute (routeOf a) = a := by
  cases a <;> rfl

/-- Different rates have different routes, so never the same cascade. -/
theorem routeOf_injective : Function.Injective routeOf :=
  Function.LeftInverse.injective rateOfRoute_routeOf

/-! What FB_DOWNSAMPLE depends on. -/

section
variable {a : RateCode} {s t : State} (hsame : SameInputs a s t)
include hsame

/-- The error checks read readiness and the ring registers (41_filter_bank.md R166). -/
theorem SameInputs.allowed_iff {slot rawlen : Nat} :
    DownsampleAllowed t slot rawlen ↔ DownsampleAllowed s slot rawlen := by
  obtain ⟨-, -, hfb, hring, hk, hblen, -⟩ := hsame
  constructor
  · rintro ⟨h1, h2, h3, h4, h5⟩
    exact ⟨hfb ▸ h1, hring ▸ h2, hk ▸ h3, h4, hblen ▸ h5⟩
  · rintro ⟨h1, h2, h3, h4, h5⟩
    exact ⟨hfb ▸ h1, hring ▸ h2, hk ▸ h3, h4, hblen ▸ h5⟩

theorem SameInputs.rawSamples_eq (base n : Nat) : t.rawSamples base n = s.rawSamples base n :=
  rawSamples_congr fun _ _ => byteAt_congr (sp := .ring) hsame.ringMem hsame.resets _

/-- A cascade's output depends on its own histories alone (41_filter_bank.md R154). -/
theorem SameInputs.routeOutput_eq (x : List Sample) :
    routeOutput t (routeOf a) x = routeOutput s (routeOf a) x := by
  cases hroute : routeOf a with
  | identity => rfl
  | cascade r => simp only [routeOutput, State.cascadeOutput, stagesWith, hsame.filter, hsame.histories r hroute]
  | unsupported => rfl

/-- The samples put out are the same. -/
theorem SameInputs.blockOutput_eq (slot rawlen : Nat) :
    routeOutput t (routeOf a) (t.rawSamples (slotBase t.sizes slot) (rawlen / 3)) =
      routeOutput s (routeOf a) (s.rawSamples (slotBase s.sizes slot) (rawlen / 3)) := by
  rw [hsame.routeOutput_eq, hsame.rawSamples_eq, hsame.sizes]

end

/-- The bytes of OUT that RESULT counts are the packed output. -/
theorem byteAt_downsampled (s : State) (route : Route) (d : OutDepth) (base rawlen : Nat) {n : Nat}
    (hn : n < (downsampled s route d base rawlen).result.toNat) :
    (downsampled s route d base rawlen).byteAt .out n =
      (packBytes d (routeOutput s route (s.rawSamples base (rawlen / 3)))).getD n 0#8 := by
  refine byteAt_output_inside s (hn.trans_le ?_)
  rw [packBytes_length, downsampled, BitVec.toNat_ofNat]
  exact Nat.mod_le _ _

/-- The same samples put out give the same RESULT and the same bytes below it. -/
theorem downsampled_agree {a : RateCode} {s t : State} (hsame : SameInputs a s t) (d : OutDepth) (slot rawlen : Nat) :
    (downsampled t (routeOf a) d (slotBase t.sizes slot) rawlen).result =
        (downsampled s (routeOf a) d (slotBase s.sizes slot) rawlen).result ∧
      ∀ n, n < (downsampled s (routeOf a) d (slotBase s.sizes slot) rawlen).result.toNat →
        (downsampled t (routeOf a) d (slotBase t.sizes slot) rawlen).byteAt .out n =
          (downsampled s (routeOf a) d (slotBase s.sizes slot) rawlen).byteAt .out n := by
  have houtput := hsame.blockOutput_eq slot rawlen
  have hresult : (downsampled t (routeOf a) d (slotBase t.sizes slot) rawlen).result =
      (downsampled s (routeOf a) d (slotBase s.sizes slot) rawlen).result := by
    rw [downsampled, downsampled, houtput]
  refine ⟨hresult, fun n hn => ?_⟩
  have hnt := hn
  rw [← hresult] at hnt
  rw [byteAt_downsampled s _ d _ rawlen hn, byteAt_downsampled t _ d _ rawlen hnt, houtput]

/-! What FB_DOWNSAMPLE keeps, and what two states with the same inputs have in common after it. -/

section
variable {s t : State} {slot depth rawlen : Nat} (hexec : exec (.fbDownsample slot depth rawlen) s = .next t)
include hexec

theorem fbDownsample_keeps_target : t.target = s.target :=
  (exec_filterState hexec).2.2.resolve_right nofun

theorem fbDownsample_refused_keeps_out (hrefused : ¬ DownsampleAllowed s slot rawlen) : t.outMem = s.outMem := by
  obtain ⟨e, hraise⟩ := exec_fbDownsample_refused depth hrefused
  obtain rfl : s.raise e = t := by injection hraise.symm.trans hexec
  rfl

/-- FB_DOWNSAMPLE at another rate keeps all that a rate's downsampling reads. -/
theorem fbDownsample_keeps_inputs {a : RateCode} (hinv : Inv s) (htarget : s.target ≠ a) : SameInputs a s t := by
  by_cases hallowed : DownsampleAllowed s slot rawlen
  · cases hdepth : outDepth? depth with
    | none =>
      obtain rfl : s.ret 0 = t := by
        injection (exec_fbDownsample_unsupportedDepth hallowed hdepth).symm.trans hexec
      exact sameInputs_ret a s 0
    | some d =>
      obtain rfl : downsampled s (routeOf s.target) d (slotBase s.sizes slot) rawlen = t := by
        injection (exec_fbDownsample_eq_downsampled hinv hallowed hdepth).symm.trans hexec
      exact sameInputs_downsampled s (fun r ha hb => htarget (routeOf_injective (hb.trans ha.symm))) d _ rawlen
  · obtain ⟨e, hraise⟩ := exec_fbDownsample_refused depth hallowed
    obtain rfl : s.raise e = t := by injection hraise.symm.trans hexec
    exact sameInputs_raise a s e

end

/-- From two states with the same inputs, both with TARGET `a`, FB_DOWNSAMPLE leaves the same RESULT and the same
bytes below it. Where it is refused RESULT is ERR and no byte is written, so OUT has to agree before. -/
theorem fbDownsample_agree {a : RateCode} {s t s' t' : State} {slot depth rawlen : Nat} (hs : Inv s) (ht : Inv t)
    (hsame : SameInputs a s t) (hsa : s.target = a) (hta : t.target = a)
    (hout : ¬ DownsampleAllowed s slot rawlen → t.outMem = s.outMem)
    (hexecs : exec (.fbDownsample slot depth rawlen) s = .next s')
    (hexect : exec (.fbDownsample slot depth rawlen) t = .next t') :
    t'.result = s'.result ∧ ∀ n, n < s'.result.toNat → t'.byteAt .out n = s'.byteAt .out n := by
  by_cases hallowed : DownsampleAllowed s slot rawlen
  · have hallowedt := hsame.allowed_iff.mpr hallowed
    cases hdepth : outDepth? depth with
    | none =>
      obtain rfl : s.ret 0 = s' := by
        injection (exec_fbDownsample_unsupportedDepth hallowed hdepth).symm.trans hexecs
      obtain rfl : t.ret 0 = t' := by
        injection (exec_fbDownsample_unsupportedDepth hallowedt hdepth).symm.trans hexect
      exact ⟨rfl, fun n hn => absurd hn (by simp)⟩
    | some d =>
      obtain rfl : downsampled s (routeOf a) d (slotBase s.sizes slot) rawlen = s' := by
        injection hsa ▸ (exec_fbDownsample_eq_downsampled hs hallowed hdepth).symm.trans hexecs
      obtain rfl : downsampled t (routeOf a) d (slotBase t.sizes slot) rawlen = t' := by
        injection hta ▸ (exec_fbDownsample_eq_downsampled ht hallowedt hdepth).symm.trans hexect
      exact downsampled_agree hsame d slot rawlen
  · obtain ⟨e, hraises⟩ := exec_fbDownsample_refused depth hallowed
    obtain ⟨e', hraiset⟩ := exec_fbDownsample_refused depth (mt hsame.allowed_iff.mp hallowed)
    obtain rfl : s.raise e = s' := by injection hraises.symm.trans hexecs
    obtain rfl : t.raise e' = t' := by injection hraiset.symm.trans hexect
    exact ⟨rfl, fun n _ => byteAt_congr (sp := .out) (hout hallowed) hsame.resets n⟩

/-! Runs of commands. -/

theorem execAll_cons {i : Instr} {rest : List Instr} {s t : State} (h : exec i s = .next t) :
    execAll (i :: rest) s = execAll rest t := by
  rw [execAll, h]

theorem execAll_setTarget (rate : RateCode) (rest : List Instr) (s : State) :
    execAll (.fbSetTarget rate :: rest) s = execAll rest { s with target := rate, result := 0#32 } :=
  execAll_cons (exec_fbSetTarget_eq s rate)

theorem inv_setTarget {s : State} (h : Inv s) (rate : RateCode) : Inv { s with target := rate, result := 0#32 } :=
  inv_control h 0#32 s.errors rate s.readData

/-- Settles O33: `p` is the state after the first A and its downsampling, `q` the one after the detour over B that
follows. The detour keeps all that rate A reads, so the last downsampling of A does from `q` what it does from `p`. -/
theorem switchingLaw : Obligations.SwitchingLaw := by
  unfold Obligations.SwitchingLaw
  intro s a b slot depth rawlen hinv hab
  have hinva := inv_setTarget hinv a
  obtain ⟨p, hp⟩ := exec_completes hinva (.fbDownsample slot depth rawlen)
  have hinvp := inv_exec hinva hp
  have hinvb := inv_setTarget hinvp b
  obtain ⟨p', hp'⟩ := exec_completes hinvb (.fbDownsample slot depth rawlen)
  have hinvq := inv_setTarget (inv_exec hinvb hp') a
  obtain ⟨v, hv⟩ := exec_completes hinvp (.fbDownsample slot depth rawlen)
  obtain ⟨u, hu⟩ := exec_completes hinvq (.fbDownsample slot depth rawlen)
  have hsame : SameInputs a p { p' with target := a, result := 0#32 } :=
    ((sameInputs_setTarget a p b).trans (fbDownsample_keeps_inputs hp' hinvb hab.symm)).trans
      (sameInputs_setTarget a p' a)
  have hout (hrefused : ¬ DownsampleAllowed p slot rawlen) : p'.outMem = p.outMem := by
    have hkept := fbDownsample_refused_keeps_out hp' (mt (sameInputs_setTarget a p b).allowed_iff.mp hrefused)
    exact hkept
  refine ⟨u, v, ?_, ?_, fbDownsample_agree hinvp hinvq hsame (fbDownsample_keeps_target hp) rfl hout hv hu⟩
  · rw [execAll_setTarget, execAll_cons hp, execAll_setTarget, execAll_cons hp', execAll_setTarget, execAll_cons hu,
      execAll]
  · rw [execAll_setTarget, execAll_cons hp, execAll_cons hv, execAll]

end Sys2Proof.Proofs
end

section
/-! PROOFS. The Format Converter and NOP (42_format.md R180 to R190): truncation undoes widening, as numbers and as bytes,
and FMT_CONVERT keeps the top bytes of each FXP word. -/

namespace Sys2Proof.Proofs

open Sys2Proof.Machine Sys2Proof.Laws

/-! NOP (42_format.md R190). -/

theorem ret_zero (s : State) : s.ret 0 = { s with result := 0#32 } := rfl

/-- Settles O8: the word is a literal, and NOP is `return 0` in every state. -/
theorem nopOnlyClearsResult : Obligations.NopOnlyClearsResult := by
  unfold Obligations.NopOnlyClearsResult
  refine ⟨by decide, fun s => ?_⟩
  rw [exec_nop, execNop, ret_zero]

/-! The outcomes of FMT_CONVERT (42_format.md R186, 60_exceptions.md R207). -/

theorem exec_fmtConvert_arg {s : State} {count : Nat} (depth : Nat) (hcount : s.sizes.nMax < count) :
    exec (.fmtConvert depth count) s = .next (s.raise .arg) :=
  if_pos hcount

theorem exec_fmtConvert_unsupportedDepth {s : State} {depth count : Nat} (hcount : count ≤ s.sizes.nMax)
    (hdepth : outDepth? depth = none) : exec (.fmtConvert depth count) s = .next (s.ret 0) := by
  rw [exec_fmtConvert, execFmtConvert, if_neg (Nat.not_lt.mpr hcount), hdepth]

/-- Both accesses stay inside their space: `count` words of FXP, and their packed bytes in OUT (20_memory.md R62). -/
theorem exec_fmtConvert_packs {s : State} {depth count : Nat} {d : OutDepth} (hcount : count ≤ s.sizes.nMax)
    (hdepth : outDepth? depth = some d) :
    exec (.fmtConvert depth count) s = .next { s with
      outMem := s.outMem.store 0 (packBytes d (s.fxpSamples count))
      result := BitVec.ofNat 32 (count * d.bytes) } := by
  have hread : s.inSpace .fxp 0 (4 * count) = true := by
    simpa [State.inSpace, spaceSize] using hcount
  have hlength : (packBytes d (s.fxpSamples count)).length = count * d.bytes := by
    rw [packBytes_length, fxpSamples_length]
  have hwrite : (packBytes d (s.fxpSamples count)).length ≤ 3 * s.sizes.nMax :=
    packBytes_fits_out d (by rwa [fxpSamples_length])
  rw [exec_fmtConvert, execFmtConvert, if_neg (Nat.not_lt.mpr hcount), hdepth, ← hlength]
  exact (if_pos hread).trans (output_eq hwrite)

/-- Settles O23: the count is checked before the depth. -/
theorem fmtConvertErrorAndNoOp : Obligations.FmtConvertErrorAndNoOp := by
  unfold Obligations.FmtConvertErrorAndNoOp
  intro s depth count
  refine ⟨fun hcount => ?_, fun hcount h16 h24 => ?_⟩
  · rw [exec_fmtConvert_arg depth hcount, raise_arg]
  · rw [exec_fmtConvert_unsupportedDepth hcount (outDepth?_eq_none h16 h24), ret_zero]

/-! The bytes FMT_CONVERT leaves in OUT. -/

/-- Word `i` of FXP as a number: four bytes fit it (10_state.md R43). -/
theorem fxpSamples_getD_toNat (s : State) {n i : Nat} (hi : i < n) :
    ((s.fxpSamples n).getD i 0#32).toNat = s.memRead .fxp (4 * i) 4 := by
  have hlt := leNat_lt (s.bytesAt .fxp (4 * i) 4)
  rw [bytesAt_length] at hlt
  have hword : (s.fxpSamples n).getD i 0#32 = BitVec.ofNat 32 (s.memRead .fxp (4 * i) 4) := by
    simp [State.fxpSamples, hi]
  rw [hword, BitVec.toNat_ofNat]
  exact Nat.mod_eq_of_lt hlt

/-- A byte of a packed FXP word is the byte of FXP it was read from (42_format.md R182 to R184). -/
theorem byteAt_output_fxpSamples (s : State) (d : OutDepth) {n i c : Nat} (hi : i < n) (hc : c < d.bytes) :
    State.byteAt { s with outMem := s.outMem.store 0 (packBytes d (s.fxpSamples n)) } .out (i * d.bytes + c) =
      s.byteAt .fxp (4 * i + (4 - d.bytes) + c) := by
  have hbytes := outDepth_bytes_le d
  rw [byteAt_output_packed s d (by rwa [fxpSamples_length]) hc, fxpSamples_getD_toNat s hi,
    memRead_byte s .fxp _ (by omega), Nat.add_assoc]

/-- Settles O22: OUT gets the packed words, each byte one of FXP's. -/
theorem fmtConvertKeepsTopBytes : Obligations.FmtConvertKeepsTopBytes := by
  unfold Obligations.FmtConvertKeepsTopBytes
  intro s depth b count hcount hdepth
  obtain ⟨d, hd, rfl⟩ := outDepth?_of_depthBytes hdepth
  exact ⟨_, exec_fmtConvert_packs hcount hd, fun i c hi hc => byteAt_output_fxpSamples s d hi hc,
    fun a ha => byteAt_output_outside s (by rwa [packBytes_length, fxpSamples_length])⟩

/-! Truncation undoes widening (42_format.md R181 to R183, R185). -/

/-- Shifting right by `n` and keeping the low `m` of `m + n` bits leaves the top `m` bits: the sign bits that the shift
brings in are cut off again. -/
theorem toNat_setWidth_sshiftRight {m n : Nat} (x : BitVec (m + n)) :
    ((x.sshiftRight n).setWidth m).toNat = x.toNat / 2 ^ n := by
  have htop : (x.sshiftRight n).setWidth m = x.extractLsb' n m := by
    ext i hi
    simp [← BitVec.getLsbD_eq_getElem, BitVec.getLsbD_sshiftRight, hi, show ¬ m + n ≤ i by omega,
      show n + i < m + n by omega]
  have hx := x.isLt
  rw [pow_add, Nat.mul_comm] at hx
  have hlt : x.toNat / 2 ^ n < 2 ^ m := Nat.div_lt_of_lt_mul hx
  rw [htop, BitVec.extractLsb'_toNat, Nat.shiftRight_eq_div_pow, Nat.mod_eq_of_lt hlt]

theorem trunc16_toNat (w : Sample) : (trunc16 w).toNat = w.toNat / 2 ^ 16 :=
  toNat_setWidth_sshiftRight (m := 16) (n := 16) w

theorem trunc24_toNat (w : Sample) : (trunc24 w).toNat = w.toNat / 2 ^ 8 :=
  toNat_setWidth_sshiftRight (m := 24) (n := 8) w

theorem trunc24_widen24 (u : RawSample) : trunc24 (widen24 u) = u := by
  apply BitVec.eq_of_toNat_eq
  rw [trunc24_toNat, widen24_toNat]
  exact Nat.mul_div_cancel _ (by decide)

theorem trunc16_widen24_toNat (u : RawSample) : (trunc16 (widen24 u)).toNat = u.toNat / 2 ^ 8 := by
  rw [trunc16_toNat, widen24_toNat]
  omega

/-- The dropped low byte counts upwards from a multiple of 2^8 also in a negative sample, so dropping it rounds toward
minus infinity (42_format.md R185). -/
theorem trunc16_widen24_toInt (u : RawSample) : (trunc16 (widen24 u)).toInt = u.toInt / 2 ^ 8 := by
  have hlt := u.isLt
  rw [BitVec.toInt_eq_toNat_cond, BitVec.toInt_eq_toNat_cond, trunc16_widen24_toNat]
  omega

/-- A 24-bit sample as the little-endian number of its bytes (00_scope.md R14). -/
theorem toNat_bytes3 (b0 b1 b2 : Byte) : (b2 ++ b1 ++ b0).toNat = leNat [b0, b1, b2] := by
  simp only [toNat_append_eq_add, leNat]
  omega

theorem packSample_d24_widen24 (b0 b1 b2 : Byte) : packSample .d24 (widen24 (b2 ++ b1 ++ b0)) = [b0, b1, b2] := by
  rw [packSample, trunc24_widen24, toNat_bytes3]
  exact leBytes_leNat [b0, b1, b2]

theorem packSample_d16_widen24 (b0 b1 b2 : Byte) : packSample .d16 (widen24 (b2 ++ b1 ++ b0)) = [b1, b2] := by
  have htop : leNat [b0, b1, b2] / 2 ^ 8 = leNat [b1, b2] := by
    simp only [leNat]
    omega
  rw [packSample, trunc16_widen24_toNat, toNat_bytes3, htop]
  exact leBytes_leNat [b1, b2]

/-- Settles O35: as numbers, then as bytes at each depth. -/
theorem widenTruncateRoundTrip : Obligations.WidenTruncateRoundTrip := by
  unfold Obligations.WidenTruncateRoundTrip
  exact ⟨fun u => ⟨by rw [trunc24_widen24], trunc16_widen24_toInt u⟩,
    fun b0 b1 b2 => ⟨packSample_d24_widen24 b0 b1 b2, packSample_d16_widen24 b0 b1 b2⟩⟩

end Sys2Proof.Proofs
end

section
/-! PROOFS. Errors are precise (60_exceptions.md R200 to R203, 70_reset_and_hazards.md R244): a command either raises one
error and does nothing else, or leaves the error bits alone and a value other than ERR in RESULT. And nothing happens
without a transaction (R215). -/

namespace Sys2Proof.Proofs

open Sys2Proof.Machine Sys2Proof.Safety Sys2Proof.Laws

/-- Settles O6: the pending list is empty, which is the case `step_nil`. -/
theorem nothingHappensWithoutTransaction : Obligations.NothingHappensWithoutTransaction := by
  unfold Obligations.NothingHappensWithoutTransaction
  exact fun _ hinbox => step_nil hinbox

/-! What an error is. -/

/-- The causes are STATUS bits 8 to 14, the seven error bits (60_exceptions.md R201). -/
theorem errorBit_lt (e : ErrorCause) : e.bit - 8 < 7 := by
  cases e <;> decide

theorem raise_eq (s : State) (e : ErrorCause) :
    s.raise e = { s with errors := s.errors ||| (1#7 <<< (e.bit - 8)), result := 0xFFFFFFFF#32 } := rfl

/-! What a command that raises no error leaves: the numbers that RESULT can get are all below ERR. -/

/-- From `s` to `t` no error bit changed, and RESULT of `t` is not ERR. -/
structure NoError (s t : State) : Prop where
  errors : t.errors = s.errors
  result : t.result ≠ 0xFFFFFFFF#32

/-- Returning `v` after an update `u` of `s` that kept the error bits. -/
theorem noError_ret {s u : State} {v : Nat} (herrors : u.errors = s.errors) (hv : v < 2 ^ 32 - 1) :
    NoError s (u.ret v) where
  errors := herrors
  result herr := by
    have hnum : v % 2 ^ 32 = 2 ^ 32 - 1 := by simpa using congrArg BitVec.toNat herr
    omega

/-- COUNT of a good ready ring is below ERR: it has CNT_W bits, at most 31 (00_scope.md R9). -/
theorem count_lt_err {s : State} (hinv : Inv s) (hready : s.ringReady = true) : s.count < 2 ^ 32 - 1 := by
  have hle := (hinv.ready hready).count_le
  have hpow : 2 ^ s.sizes.cntW ≤ 2 ^ 31 := Nat.pow_le_pow_right (by decide) hinv.sizes.cntW_le
  omega

/-- RD of a good ready ring is below ERR: it is a slot, and there are at most 128 (00_scope.md R9). -/
theorem rd_lt_err {s : State} (hinv : Inv s) (hready : s.ringReady = true) : s.rd < 2 ^ 32 - 1 := by
  have hring := hinv.ready hready
  have hrd := hring.rd_lt
  have hk := hring.k_le
  have hkMax := kMax_le hinv.sizes
  omega

/-- Output returns its length, at most the size of OUT (20_memory.md R62, 42_format.md R184). -/
theorem noError_output {s u t : State} {bytes : List Byte} (hvalid : u.sizes.Valid) (herrors : u.errors = s.errors)
    (houtput : u.output bytes = .next t) : NoError s t := by
  obtain ⟨hfit, rfl⟩ := output_next houtput
  have hnMax := hvalid.nMax_le
  exact noError_ret (u := u.store .out 0 bytes) ((store_errors _ _ _ _).trans herrors) (by omega)

/-- The work of FB_DOWNSAMPLE ends in output on either route (41_filter_bank.md R166). -/
theorem noError_downsample {s t : State} (hvalid : s.sizes.Valid) {route : Route} {d : OutDepth} {base rawlen : Nat}
    (hroute : route ≠ .unsupported) (hwork : s.downsample route d base rawlen = .next t) : NoError s t := by
  obtain ⟨-, bytes, houtput⟩ | ⟨r, -, houtput⟩ := downsample_next hroute hwork
  · exact noError_output hvalid rfl houtput
  · exact noError_output (u := s.runCascade r _) hvalid rfl houtput

/-- A command that completes in a good state has raised one error, or none. -/
theorem exec_raises_or_noError {i : Instr} {s t : State} (hinv : Inv s) (hexec : exec i s = .next t) :
    (∃ e, t = s.raise e) ∨ NoError s t := by
  cases i with
  | nop =>
    obtain rfl : s.ret 0 = t := by injection hexec
    exact .inr (noError_ret rfl (by decide))
  | ringInit cap blen =>
    obtain hraise | ⟨-, -, rfl⟩ := execRingInit_next hexec
    · exact .inl ⟨_, hraise⟩
    · exact .inr (noError_ret rfl (by decide))
  | ringAvailable =>
    obtain ⟨-, hraise⟩ | ⟨hready, rfl⟩ := execRingAvailable_next hexec
    · exact .inl ⟨_, hraise⟩
    · exact .inr (noError_ret rfl (count_lt_err hinv hready))
  | ringConsume =>
    obtain ⟨-, hraise⟩ | ⟨-, -, hraise⟩ | ⟨hready, -, rfl⟩ := execRingConsume_next hexec
    · exact .inl ⟨_, hraise⟩
    · exact .inl ⟨_, hraise⟩
    · exact .inr (noError_ret rfl (rd_lt_err hinv hready))
  | ringOvrRead =>
    obtain ⟨-, hraise⟩ | ⟨-, rfl⟩ := execRingOvrRead_next hexec
    · exact .inl ⟨_, hraise⟩
    · exact .inr (noError_ret rfl ((Bool.toNat_lt s.ovr).trans (by decide)))
  | ringOvrClear =>
    obtain ⟨-, hraise⟩ | ⟨-, rfl⟩ := execRingOvrClear_next hexec
    · exact .inl ⟨_, hraise⟩
    · exact .inr (noError_ret rfl (by decide))
  | fbInit =>
    obtain rfl : State.ret { s with hist := zeroHistories s.filter.coef, fbReady := true } 0 = t := by injection hexec
    exact .inr (noError_ret rfl (by decide))
  | fbSetTarget rate =>
    obtain rfl : State.ret { s with target := rate } 0 = t := by injection hexec
    exact .inr (noError_ret rfl (by decide))
  | fbDownsample slot depth rawlen =>
    obtain hraise | rfl | ⟨-, hroute, d, -, hwork⟩ := execFbDownsample_next hexec
    · exact .inl hraise
    · exact .inr (noError_ret rfl (by decide))
    · exact .inr (noError_downsample hinv.sizes hroute hwork)
  | fmtConvert depth count =>
    obtain ⟨-, hraise⟩ | ⟨-, -, rfl⟩ | ⟨-, d, -, houtput⟩ := execFmtConvert_next hexec
    · exact .inl ⟨_, hraise⟩
    · exact .inr (noError_ret rfl (by decide))
    · exact .inr (noError_output hinv.sizes rfl houtput)

/-- Settles O42: ERR in RESULT or a changed error bit rules out `NoError`, so the command raised one error. -/
theorem errorsArePrecise : Obligations.ErrorsArePrecise := by
  unfold Obligations.ErrorsArePrecise
  intro i s t hinv hexec hsign
  obtain ⟨e, rfl⟩ | hnone := exec_raises_or_noError hinv hexec
  · exact ⟨e.bit - 8, errorBit_lt e, raise_eq s e⟩
  · exact absurd hsign (not_or.mpr ⟨hnone.result, not_not.mpr hnone.errors⟩)

end Sys2Proof.Proofs
end

section
/-! PROOFS. What FB_DOWNSAMPLE reads of the ring (70_reset_and_hazards.md R252): with the cursors, COUNT, OVR and the
bytes outside its slot replaced it does the same to everything else. -/

namespace Sys2Proof.Proofs

open Sys2Proof.Machine Sys2Proof.Safety Sys2Proof.Laws

/-- The state with what a push and the consumer move of the ring replaced: the cursors, COUNT, OVR and the bytes.
RING_READY, K and BLEN stay. -/
def withRing (s : State) (wr rd count : Nat) (ovr : Bool) (m : Memory) : State :=
  { s with wr := wr, rd := rd, count := count, ovr := ovr, ringMem := m }

section
variable {s t : State} {wr rd count : Nat} {ovr : Bool} {m : Memory}

/-- Output reads only the size of OUT, and writes no part of the ring. -/
theorem output_withRing {bytes : List Byte} (h : s.output bytes = .next t) :
    (withRing s wr rd count ovr m).output bytes = .next (withRing t wr rd count ovr m) := by
  obtain ⟨hfit, rfl⟩ := output_next h
  exact output_eq (s := withRing s wr rd count ovr m) hfit

/-- The work of FB_DOWNSAMPLE reads the first `rawlen` bytes from `base` and nothing else of the ring. -/
theorem downsample_withRing {route : Route} {d : OutDepth} {base rawlen : Nat}
    (hbytes : ∀ i, i < rawlen → (withRing s wr rd count ovr m).byteAt .ring (base + i) = s.byteAt .ring (base + i))
    (h : s.downsample route d base rawlen = .next t) :
    (withRing s wr rd count ovr m).downsample route d base rawlen = .next (withRing t wr rd count ovr m) := by
  have hsamples : (withRing s wr rd count ovr m).rawSamples base (rawlen / 3) = s.rawSamples base (rawlen / 3) :=
    rawSamples_congr fun i hi => hbytes i (by omega)
  cases route with
  | identity =>
    cases d with
    | d16 =>
      rw [State.downsample, hsamples]
      exact output_withRing h
    | d24 =>
      rw [State.downsample, bytesAt_congr hbytes]
      exact output_withRing h
  | cascade r =>
    rw [State.downsample, hsamples]
    exact output_withRing (s := s.runCascade r _) h
  | unsupported =>
    obtain rfl : s.ret 0 = t := by injection h
    rfl

/-- The checks of FB_DOWNSAMPLE read none of what is replaced: it is refused with the same error. -/
theorem exec_fbDownsample_withRing_refused {slot depth rawlen : Nat} (hrefused : ¬ DownsampleAllowed s slot rawlen) :
    ∃ e, exec (.fbDownsample slot depth rawlen) s = .next (s.raise e) ∧
      exec (.fbDownsample slot depth rawlen) (withRing s wr rd count ovr m) =
        .next (withRing (s.raise e) wr rd count ovr m) := by
  cases hfb : s.fbReady with
  | false =>
    exact ⟨_, exec_fbDownsample_fbUninit depth slot rawlen hfb, exec_fbDownsample_fbUninit depth slot rawlen hfb⟩
  | true =>
    cases hring : s.ringReady with
    | false =>
      exact ⟨_, exec_fbDownsample_ringUninit depth slot rawlen hfb hring,
        exec_fbDownsample_ringUninit depth slot rawlen hfb hring⟩
    | true =>
      have hargs : s.k ≤ slot ∨ rawlen % 3 ≠ 0 ∨ s.blen < rawlen := by
        by_contra hargs
        exact hrefused ⟨hfb, hring, by omega, by omega, by omega⟩
      exact ⟨_, exec_fbDownsample_arg depth hfb hring hargs, exec_fbDownsample_arg depth hfb hring hargs⟩

/-- With its checks passed FB_DOWNSAMPLE completes as before: a no-op reads nothing, the work only the slot. -/
theorem exec_fbDownsample_withRing_allowed {slot depth rawlen : Nat} (hallowed : DownsampleAllowed s slot rawlen)
    (hbytes : ∀ i, i < rawlen → (withRing s wr rd count ovr m).byteAt .ring (slotBase s.sizes slot + i) =
      s.byteAt .ring (slotBase s.sizes slot + i))
    (h : exec (.fbDownsample slot depth rawlen) s = .next t) :
    exec (.fbDownsample slot depth rawlen) (withRing s wr rd count ovr m) = .next (withRing t wr rd count ovr m) := by
  have hallowed' : DownsampleAllowed (withRing s wr rd count ovr m) slot rawlen :=
    ⟨hallowed.fb_ready, hallowed.ring_ready, hallowed.slot_lt, hallowed.whole, hallowed.len_le⟩
  rw [exec_fbDownsample, execFbDownsample_allowed depth hallowed] at h
  rw [exec_fbDownsample, execFbDownsample_allowed depth hallowed']
  cases hdepth : outDepth? depth with
  | none =>
    obtain rfl : s.ret 0 = t := by simpa [hdepth] using h
    rfl
  | some d =>
    simp only [hdepth] at h
    by_cases hroute : routeOf s.target = .unsupported
    · obtain rfl : s.ret 0 = t := by simpa [hroute] using h
      exact if_pos hroute
    · rw [if_neg hroute] at h
      by_cases hin : s.inSpace .ring (slotBase s.sizes slot) rawlen = true
      · rw [if_pos hin] at h
        exact (if_neg hroute).trans ((if_pos hin).trans (downsample_withRing hbytes h))
      · rw [if_neg hin] at h
        cases h

end

/-- Settles O34: refused or not, what FB_DOWNSAMPLE reads of the ring lies in the first RAWLEN, at most BLEN, bytes of
its slot. -/
theorem downsampleReadsOnlyItsSlot : Obligations.DownsampleReadsOnlyItsSlot := by
  unfold Obligations.DownsampleReadsOnlyItsSlot
  intro s t slot depth rawlen wr rd count ovr m hslot hexec
  by_cases hallowed : DownsampleAllowed s slot rawlen
  · exact exec_fbDownsample_withRing_allowed hallowed (fun i hi => hslot i (hi.trans_le hallowed.len_le)) hexec
  · obtain ⟨e, hraise, hraise'⟩ := exec_fbDownsample_withRing_refused hallowed
    obtain rfl : s.raise e = t := by injection hraise.symm.trans hexec
    exact hraise'

end Sys2Proof.Proofs
end

section
/-! PROOFS. Readiness (70_reset_and_hazards.md R234): no command and no transaction but reset takes RING_READY or
FB_READY back, and each of the two INIT commands writes its own part alone. -/

namespace Sys2Proof.Proofs

open Sys2Proof.Machine Sys2Proof.Safety Sys2Proof.Laws

/-- A part that is ready in `s` is ready in `t`. -/
structure KeepsReady (s t : State) : Prop where
  ring : s.ringReady = true → t.ringReady = true
  filterBank : s.fbReady = true → t.fbReady = true

/-- RING_INIT and FB_INIT set a flag; the other commands write neither (40_ring.md R112, 41_filter_bank.md R160). -/
theorem exec_keepsReady {i : Instr} {s t : State} (hexec : exec i s = .next t) : KeepsReady s t := by
  cases exec_outcome hexec with
  | ringInit => exact ⟨fun _ => rfl, id⟩
  | fbInit => exact ⟨id, fun _ => rfl⟩
  | _ => exact ⟨id, id⟩

/-- Every transaction but reset keeps what is ready ready. -/
theorem outcome_keepsReady {s t : State} {e : Event} (hout : EventOutcome s e t) (hreset : e ≠ .reset) :
    KeepsReady s t := by
  cases hout with
  | command _ hexec => exact exec_keepsReady hexec
  | reset => exact absurd rfl hreset
  | _ => exact ⟨id, id⟩

/-- RING_INIT, refused or not, leaves the filter bank and OUT alone (40_ring.md R112, R113). -/
theorem exec_ringInit_keeps_filterBank {cap blen : Nat} {s t : State} (hexec : exec (.ringInit cap blen) s = .next t) :
    t.fbReady = s.fbReady ∧ t.target = s.target ∧ t.hist = s.hist ∧ t.outMem = s.outMem := by
  obtain rfl | ⟨-, -, rfl⟩ := execRingInit_next hexec <;> exact ⟨rfl, rfl, rfl, rfl⟩

/-- FB_INIT leaves the ring alone (41_filter_bank.md R160). -/
theorem exec_fbInit_keeps_ring {s t : State} (hexec : exec .fbInit s = .next t) :
    t.ringReady = s.ringReady ∧ t.k = s.k ∧ t.blen = s.blen ∧ t.wr = s.wr ∧ t.rd = s.rd ∧
      t.count = s.count ∧ t.ovr = s.ovr ∧ t.ringMem = s.ringMem := by
  obtain rfl : State.ret { s with hist := zeroHistories s.filter.coef, fbReady := true } 0 = t := by injection hexec
  exact ⟨rfl, rfl, rfl, rfl, rfl, rfl, rfl, rfl⟩

/-- Settles O44: a step that is no reset keeps both flags, so one that clears a flag is a reset. -/
theorem readinessFallsOnlyAtReset : Obligations.ReadinessFallsOnlyAtReset := by
  unfold Obligations.ReadinessFallsOnlyAtReset
  refine ⟨fun s t e rest hinbox hstep hfalls => ?_, fun s t cap blen => exec_ringInit_keeps_filterBank,
    fun s t => exec_fbInit_keeps_ring⟩
  by_contra hreset
  obtain ⟨hring, hfb⟩ := outcome_keepsReady (step_outcome hinbox hstep) hreset
  obtain ⟨hset, hclear⟩ | ⟨hset, hclear⟩ := hfalls
  · exact Bool.false_ne_true (hclear.symm.trans (hring hset))
  · exact Bool.false_ne_true (hclear.symm.trans (hfb hset))

end Sys2Proof.Proofs
end

section
/-! PROOFS. The slot hazard (70_reset_and_hazards.md R242): while COUNT stays at most K every push goes through, moves
WR on by one and sets no overrun flag, whatever consumes come in between; so the (K - c)-th push is back at the slot
consumed. -/

namespace Sys2Proof.Proofs

open Sys2Proof.Machine Sys2Proof.Safety Sys2Proof.Laws

/-- The events between a RING_CONSUME and the push that overwrites its slot: consumes, and blocks of BLEN bytes. -/
def RingTraffic (blen : Nat) (e : Event) : Prop :=
  Commands e .ringConsume ∨ ∃ raw, e = .blockReady raw ∧ raw.length = blen

/-- `t` is `s` after `n` pushes, and any number of consumes, of which none overran the ring. -/
structure Advanced (n : Nat) (s t : State) : Prop where
  sizes : t.sizes = s.sizes
  ringReady : t.ringReady = s.ringReady
  k : t.k = s.k
  blen : t.blen = s.blen
  ovr : t.ovr = s.ovr
  wr : t.wr = (s.wr + n) % s.k
  count_le : t.count ≤ s.count + n

theorem Advanced.trans {m n : Nat} {s t u : State} (hst : Advanced m s t) (htu : Advanced n t u) :
    Advanced (m + n) s u where
  sizes := htu.sizes.trans hst.sizes
  ringReady := htu.ringReady.trans hst.ringReady
  k := htu.k.trans hst.k
  blen := htu.blen.trans hst.blen
  ovr := htu.ovr.trans hst.ovr
  wr := by rw [htu.wr, hst.wr, hst.k, Nat.mod_add_mod, Nat.add_assoc]
  count_le := by
    have hm := hst.count_le
    have hn := htu.count_le
    omega

/-- The pending events play no part. -/
theorem Advanced.of_inbox {n : Nat} {s t : State} {l : List Event} (h : Advanced n { s with inbox := l } t) :
    Advanced n s t :=
  ⟨h.sizes, h.ringReady, h.k, h.blen, h.ovr, h.wr, h.count_le⟩

theorem pushCount_cons (e : Event) (evs : List Event) : pushCount (e :: evs) = pushCount [e] + pushCount evs := by
  cases e with
  | blockReady raw => exact Nat.add_comm _ 1
  | _ => exact (Nat.zero_add _).symm

section
variable {s : State} (hinv : Inv s) (hready : s.ringReady = true)
include hinv hready

/-- COUNT has room to spare for a full ring: CNT_W bits hold K + 1 (00_scope.md R9). -/
theorem room_of_count_lt_k (hcount : s.count < s.k) : s.count < 2 ^ s.sizes.cntW - 1 := by
  have hk := (hinv.ready hready).k_le
  have hfits := hinv.sizes.count_fits
  omega

/-- WR names a slot, so after no push it is where it was (10_state.md R26). -/
theorem wr_eq_mod : s.wr = (s.wr + 0) % s.k :=
  (Nat.mod_eq_of_lt (hinv.ready hready).wr_lt).symm

/-- RING_CONSUME leaves WR and OVR alone, whether it returns a slot or raises E_EMPTY (40_ring.md R121). -/
theorem advanced_ringConsume {t : State} (hexec : exec .ringConsume s = .next t) : Advanced 0 s t := by
  have hwr := wr_eq_mod hinv hready
  obtain ⟨-, rfl⟩ | ⟨-, -, rfl⟩ | ⟨-, -, rfl⟩ := execRingConsume_next hexec
  · exact ⟨rfl, rfl, rfl, rfl, rfl, hwr, le_rfl⟩
  · exact ⟨rfl, rfl, rfl, rfl, rfl, hwr, le_rfl⟩
  · exact ⟨rfl, rfl, rfl, rfl, rfl, hwr, Nat.sub_le _ _⟩

/-- A push that finds a slot free takes COUNT to at most K, which is no overrun (40_ring.md R117, R118). -/
theorem advanced_push (raw : List Byte) (hcount : s.count < s.k) :
    Advanced 1 s (s.store .ring (slotBase s.sizes s.wr) (swapSamples raw)).afterPush := by
  have hone : countAfterPush s.sizes s.count = s.count + 1 :=
    countAfterPush_of_room (room_of_count_lt_k hinv hready hcount)
  have hnone : ¬ s.k < s.count + 1 := by omega
  refine ⟨rfl, rfl, rfl, rfl, ?_, rfl, ?_⟩
  · simp [hone, overrunCheck, hnone]
  · simp [hone]

end

/-- Commands leave the pending events alone. -/
theorem exec_keeps_inbox {i : Instr} {s t : State} (hexec : exec i s = .next t) : t.inbox = s.inbox := by
  cases exec_outcome hexec <;> rfl

/-- A push step in a good state: a block of BLEN bytes goes to the slot at WR (40_ring.md R117). -/
theorem step_push {s : State} {raw : List Byte} {rest : List Event} (hinv : Inv s) (hready : s.ringReady = true)
    (hinbox : s.inbox = .blockReady raw :: rest) (hlen : raw.length = s.blen) :
    step s = .next (State.store { s with inbox := rest } .ring (slotBase s.sizes s.wr) (swapSamples raw)).afterPush :=
  (step_cons hinbox).trans (blockReady_ready (inv_inbox hinv rest) hready hlen)

/-- One event of the traffic, with a slot free if it is a push. -/
theorem step_traffic {s : State} {e : Event} {rest : List Event} (hinv : Inv s) (hready : s.ringReady = true)
    (hinbox : s.inbox = e :: rest) (he : RingTraffic s.blen e) (hfree : s.count + pushCount [e] ≤ s.k) :
    ∃ t, step s = .next t ∧ Inv t ∧ t.inbox = rest ∧ Advanced (pushCount [e]) s t := by
  have hinv' := inv_inbox hinv rest
  obtain ⟨c, rfl, hdecode⟩ | ⟨raw, rfl, hlen⟩ := he
  · obtain ⟨t, hexec⟩ := exec_completes hinv' .ringConsume
    exact ⟨t, (step_command hinbox hdecode).trans hexec, inv_exec hinv' hexec, exec_keeps_inbox hexec,
      (advanced_ringConsume hinv' hready hexec).of_inbox⟩
  · have hstep := step_push hinv hready hinbox hlen
    exact ⟨_, hstep, stepKeepsInvariant _ _ hinv hstep, rfl, (advanced_push hinv' hready raw hfree).of_inbox⟩

/-- A stretch of traffic with a slot free for each of its pushes. -/
theorem run_traffic {s : State} {evs rest : List Event} (hinv : Inv s) (hready : s.ringReady = true)
    (hinbox : s.inbox = evs ++ rest) (hevs : ∀ e ∈ evs, RingTraffic s.blen e)
    (hfree : s.count + pushCount evs ≤ s.k) :
    ∃ u, run evs.length s = .next u ∧ Inv u ∧ u.inbox = rest ∧ Advanced (pushCount evs) s u := by
  induction evs generalizing s with
  | nil => exact ⟨s, rfl, hinv, hinbox, rfl, rfl, rfl, rfl, rfl, wr_eq_mod hinv hready, le_rfl⟩
  | cons e evs ih =>
    rw [pushCount_cons] at hfree ⊢
    obtain ⟨he, hevs⟩ := List.forall_mem_cons.mp hevs
    obtain ⟨t, hstep, hinvt, hinboxt, hst⟩ := step_traffic hinv hready hinbox he (by omega)
    have hfreet : t.count + pushCount evs ≤ t.k := by
      have hcount := hst.count_le
      rw [hst.k]
      omega
    obtain ⟨u, hrun, hinvu, hinboxu, htu⟩ :=
      ih hinvt (hst.ringReady.trans hready) hinboxt (hst.blen.symm ▸ hevs) hfreet
    refine ⟨u, ?_, hinvu, hinboxu, hst.trans htu⟩
    rw [List.length_cons, run, hstep]
    exact hrun

/-- R44 after the RING_CONSUME of slot `rd` puts WR `c` slots past the next one; `n` pushes more, `n + 1 = k - c`, come
full circle to `rd`. -/
theorem cursor_full_circle {rd k c n : Nat} (hrd : rd < k) (hn : n + 1 = k - c) :
    (((rd + 1) % k + c) % k + n) % k = rd := by
  have hsum : rd + 1 + c + n = rd + k := by omega
  rw [Nat.mod_add_mod, Nat.add_assoc, Nat.mod_add_mod, ← Nat.add_assoc, hsum, Nat.add_mod_right, Nat.mod_eq_of_lt hrd]

/-- Settles O29: the traffic leaves WR at the slot consumed and COUNT below K, so the push after it stores its block
there and sets no overrun flag. -/
theorem claimedSlotIsOverwrittenSilently : Obligations.ClaimedSlotIsOverwrittenSilently := by
  unfold Obligations.ClaimedSlotIsOverwrittenSilently
  intro s t evs rest last hinv hready hagree hcount hbelow hexec hevs hpushes hlast
  have hinvt := inv_inbox (inv_exec hinv hexec) (evs ++ .blockReady last :: rest)
  have hagreet := exec_keeps_cursorsAgree hexec hagree
  obtain rfl : State.ret { s with rd := (s.rd + 1) % s.k, count := s.count - 1 } s.rd = t := by
    injection (exec_ringConsume_ready hready hcount).symm.trans hexec
  have hn : pushCount evs + 1 = s.k - (s.count - 1) := hpushes
  have hroom : s.count - 1 + pushCount evs ≤ s.k := by omega
  obtain ⟨u, hrun, hinvu, hinboxu, htraffic⟩ := run_traffic hinvt hready rfl hevs hroom
  have hadv := htraffic.of_inbox
  have hwr : u.wr = s.rd := by
    have hwrt : s.wr = ((s.rd + 1) % s.k + (s.count - 1)) % s.k := hagreet
    rw [hadv.wr, ret_wr, hwrt]
    exact cursor_full_circle (hinv.ready hready).rd_lt hn
  have hfree : u.count < u.k := by
    have hle : u.count ≤ s.count - 1 + pushCount evs := hadv.count_le
    have hk : u.k = s.k := hadv.k
    omega
  have hreadyu : u.ringReady = true := hadv.ringReady.trans hready
  have hblenu : u.blen = s.blen := hadv.blen
  have hsizesu : u.sizes = s.sizes := hadv.sizes
  have hpush := (advanced_push (inv_inbox hinvu rest) hreadyu last hfree).ovr
  have hwhole : last.length % 3 = 0 := hlast ▸ (hinv.ready hready).blen_mult
  refine ⟨u, _, hrun, step_push hinvu hreadyu hinboxu (hlast.trans hblenu.symm), hwr, hpush.trans hadv.ovr, rfl,
    fun j c hj hc => ?_⟩
  rw [hwr, hsizesu]
  exact byteAt_pushed { u with inbox := rest } (slotBase s.sizes s.rd) hwhole (hlast ▸ hj) hc

end Sys2Proof.Proofs
end
